-- ==== Sys2Proof/Word.lean ====
section
/-! DEFINITION. The word types of CORE: the widths that `spec/00_scope.md` R9 and `spec/10_state.md` R23 and R24 give to
values, descriptor bytes, byte buses, counts, operation codes and status codes. -/

namespace Sys2Proof

/-- One byte: a descriptor or payload byte, DESC_WIDTH of R9. -/
abbrev Byte := BitVec 8

/-- An unsigned 64-bit value, VALUE_WIDTH of R9. -/
abbrev Value := BitVec 64

/-- A byte bus of nine lanes (`win_in`, `enc_out`), R23 to R25. -/
abbrev Bus := BitVec 72

/-- A four-bit count port (`avail`, `k_out`, `len_out`), R23 and R24. -/
abbrev Count := BitVec 4

/-- The operation-select port `op`, R60. -/
abbrev OpCode := BitVec 3

/-- The `status` port, R170. -/
abbrev StatusCode := BitVec 2

end Sys2Proof
end

