-- ==== Sys2Proof/Config.lean ====
section
/-! DEFINITION. What an implementation fixes: the constants of `spec/00_scope.md` R9, and the free values that the spec
leaves open. A free value is an opaque constant: no proof can see which value it is. The constants are the same for every
CORE, so that equal indices give equal draws: DESIGN CHOICE, unsafe (`notes/assumptions/18.md`). -/

namespace Sys2Proof.Config

/-- K_MAX of R9: the continuation count of the maximal form. -/
def kMax : Nat := 8

/-- UNIT_MAX_BYTES of R9: the longest unit, and the number of lanes of a byte bus (R25). -/
def unitMaxBytes : Nat := 9

/-- FREE VALUE (`notes/assumptions/6.md`): the `status` port in the `n`-th silent cycle (R32: "unspecified (any value)
while `resp_valid` = 0"). -/
opaque idleStatus : Nat → StatusCode

/-- FREE VALUE (`notes/assumptions/6.md`): the `k_out` port in a silent cycle (R32). -/
opaque idleK : Nat → Count

/-- FREE VALUE (`notes/assumptions/6.md`): the `len_out` port in a silent cycle (R32). -/
opaque idleLen : Nat → Count

/-- FREE VALUE (`notes/assumptions/6.md`): the `val_out` port in a silent cycle (R32). -/
opaque idleVal : Nat → Value

/-- FREE VALUE (`notes/assumptions/6.md`): the `enc_out` port in a silent cycle (R32). -/
opaque idleEnc : Nat → Bus

/-- FREE VALUE (`notes/assumptions/11.md`): what window fill number `n` leaves in lane `i` at or past `avail`
(R42: "any byte"). -/
opaque unfilledLane : Nat → Nat → Byte

/-- FREE VALUE (`notes/assumptions/10.md`): which of the values a byte held during window fill number `n` lane `i`
takes (R50: "any value that index held during the fill", chosen independently per lane). -/
opaque raceChoice : Nat → Nat → Nat

end Sys2Proof.Config
end

