-- ==== Sys2Proof/Syntax.lean ====
section
/-! DEFINITION. The request (`spec/30_encoding.md` R61: one format, CMD, whose operands travel on ports of their own)
and the instruction it stands for (the five operations of R60, written with the operands of R64). -/

namespace Sys2Proof

/-- The fields of one request, as they stand on CORE's input ports (R23). -/
structure Request where
  /-- `op[2:0]`, the only encoded field (R61). -/
  op : OpCode
  /-- `val_in[63:0]`. -/
  valIn : Value
  /-- `win_in[71:0]`, nine byte lanes. -/
  winIn : Bus
  /-- `avail[3:0]`. -/
  avail : Count
  deriving DecidableEq, Repr

/-- The operations of R60 with their operands (R63, R64), one constructor per row of the opcode table. -/
inductive Instr where
  /-- `CLASSIFY_VALUE <v>` (R101). -/
  | classifyValue (v : Value)
  /-- `CLASSIFY_DESC <b>` (R104). -/
  | classifyDesc (b : Byte)
  /-- `ENCODE <v>` (R121). -/
  | encode (v : Value)
  /-- `DECODE [<u0> <u1> ...], <a>` (R148): the window, lane 0 first, and the count of valid lanes, a natural number
  (R140). -/
  | decode (u : Bus) (a : Nat)
  /-- `ENCODED_LENGTH <v>` (R127). -/
  | encodedLength (v : Value)
  deriving DecidableEq, Repr

end Sys2Proof
end

