-- ==== Sys2Proof/WellFormed.lean ====
section
/-! DEFINITION. Which instructions a request can carry: every operand must fit its port (`spec/10_state.md` R23). -/

namespace Sys2Proof

/-- An operand fits its port. The types of `v`, `b` and `u` say so already; the count of DECODE must fit the four bits
of `avail` (R23). Every value of every other operand is legal (R78, R124). -/
def Instr.wf : Instr → Bool
  | .classifyValue _ => true
  | .classifyDesc _ => true
  | .encode _ => true
  | .decode _ a => decide (a < 16)
  | .encodedLength _ => true

/-- `i` can be presented on CORE's ports. -/
abbrev WellFormed (i : Instr) : Prop := i.wf = true

end Sys2Proof
end

