-- ==== Sys2Proof/Decode.lean ====
section
/-! DEFINITION. From the request on the ports to the instruction it selects (`spec/30_encoding.md` R60 to R63), and back:
the request that carries an instruction (R64). -/

namespace Sys2Proof

/-- Byte lane `i` of a byte bus: bits `[8i+7 : 8i]` (R25). -/
def lane (bus : Bus) (i : Nat) : Byte := bus.extractLsb' (8 * i) 8

/-- A byte bus from its lanes, lane 0 first; the lanes past the list are `0x00` (R25). -/
def packLanes : List Byte → Bus
  | [] => 0#72
  | b :: rest => b.setWidth 72 ||| (packLanes rest <<< 8)

/-- Why a request selects no operation. -/
inductive DecodeError where
  /-- `op` is `101`, `110` or `111` (R62). The step answers it with the ILLEGAL_OP response of R173: safe. -/
  | reservedOp (op : OpCode)
  deriving DecidableEq, Repr

/-- The operation a request selects, with its operands formed from the ports as R63 says. -/
def decode (r : Request) : Except DecodeError Instr :=
  match r.op.toNat with
  | 0 => .ok (.classifyValue r.valIn)
  | 1 => .ok (.classifyDesc (lane r.winIn 0))
  | 2 => .ok (.encode r.valIn)
  | 3 => .ok (.decode r.winIn r.avail.toNat)
  | 4 => .ok (.encodedLength r.valIn)
  | _ => .error (.reservedOp r.op)

/-- The request that carries an instruction: the `op` code of R60 and the operand ports of R64. Ports the operation
ignores (R28) are 0 here. -/
def encode : Instr → Request
  | .classifyValue v => { op := 0b000#3, valIn := v, winIn := 0#72, avail := 0#4 }
  | .classifyDesc b => { op := 0b001#3, valIn := 0#64, winIn := packLanes [b], avail := 0#4 }
  | .encode v => { op := 0b010#3, valIn := v, winIn := 0#72, avail := 0#4 }
  | .decode u a => { op := 0b011#3, valIn := 0#64, winIn := u, avail := BitVec.ofNat 4 a }
  | .encodedLength v => { op := 0b100#3, valIn := v, winIn := 0#72, avail := 0#4 }

/-- The request whose encoded field is the `nbits`-bit number `w`: `op` is its bits 2..0 (R61) and every operand port
is 0 (`notes/assumptions/14.md`). -/
def requestOfWord (nbits w : Nat) : Request :=
  { op := BitVec.ofNat 3 (w % 2 ^ nbits), valIn := 0#64, winIn := 0#72, avail := 0#4 }

/-- The instruction the decoder reads from a word numbered as the opcode table numbers it. -/
def decodeTableWord (nbits w : Nat) : Option Instr :=
  match decode (requestOfWord nbits w) with
  | .ok i => some i
  | .error _ => none

end Sys2Proof
end

