-- ==== Sys2Proof/Machine/State.lean ====
section
/-! DEFINITION. The state of CORE between two clock cycles: its ports (`spec/10_state.md` R23, R24), the requests in
flight (R31), and the caller's input buffer BUF (`spec/20_memory.md` R40). CORE has no registers, no program counter,
no flags and no mode (R20 to R22, R30), so no field stands for one. -/

namespace Sys2Proof.Machine

/-- The outcome a response reports (R170). -/
inductive Status where
  /-- The operation completed. -/
  | ok
  /-- The buffer is shorter than the byte count the descriptor implies (R171). -/
  | truncatedInput
  /-- Assigned and never produced (R172). -/
  | invalidDescriptor
  /-- The request's `op` is reserved (R173). -/
  | illegalOp
  deriving DecidableEq, Repr

/-- The data of one response, as it stands on the output ports (R24). -/
structure Response where
  /-- `status[1:0]`. -/
  status : StatusCode
  /-- `k_out[3:0]`. -/
  kOut : Count
  /-- `len_out[3:0]`. -/
  lenOut : Count
  /-- `val_out[63:0]`. -/
  valOut : Value
  /-- `enc_out[71:0]`. -/
  encOut : Bus
  deriving DecidableEq, Repr

/-- The input ports of one clock cycle (R23). The `clk` port is the step itself (`notes/assumptions/1.md`). -/
structure Inputs where
  /-- `rst`, synchronous and active high (R190). -/
  rst : Bool
  /-- `req_valid`. -/
  reqValid : Bool
  /-- `op`, `val_in`, `win_in` and `avail`. -/
  req : Request
  deriving DecidableEq, Repr

/-- A request that has been accepted and not yet answered (R31), with the response it will get. The response is a
function of the request alone (R26), so holding both is holding the request (`notes/assumptions/3.md`). -/
structure InFlight where
  req : Request
  resp : Response
  deriving DecidableEq, Repr

/-- The caller's input buffer BUF: `len` bytes with indices `0 .. len - 1` (R40). `cells` lists the bytes that are not
`0x00`, addresses strictly rising; an index below `len` that is not listed holds `0x00` (`notes/assumptions/8.md`). -/
structure Memory where
  len : Nat
  cells : List Host.Cell
  deriving DecidableEq, Repr

/-- The machine between two clock cycles. -/
structure State where
  /-- The input ports. The requester drives them (`notes/assumptions/12.md`). -/
  inp : Inputs
  /-- `resp_valid` (R24). -/
  respValid : Bool
  /-- The data output ports (R24). -/
  resp : Response
  /-- The requests in flight, oldest first (R31). Slot `j` is answered `j + 1` cycles from now, so the length of the
  list is VLU_LATENCY (R10, R197; `notes/assumptions/2.md`). -/
  pipe : List (Option InFlight)
  /-- The MODEL's own field (`notes/assumptions/16.md`): the request whose response stands on the output ports. -/
  answered : Option Request
  /-- BUF, which the window fill of DECODE_AT reads (R40, R42). That a CORE has one BUF from decode to decode is the model's
  (`notes/assumptions/20.md`). -/
  buf : Memory
  /-- The MODEL's own field (`notes/assumptions/16.md`): how many times a free value has been drawn. -/
  draws : Nat
  deriving DecidableEq, Repr

/-- Why an access sequence stops. CORE itself has no traps (R177): no operation and no clock cycle of CORE raises a
fault. -/
inductive Fault where
  /-- Raised by `Memory.read` and `Memory.write`, the primitives MemRead and MemWrite of R13, at an index that BUF does
  not have (R40: "for 0 ≤ i < L"). Safe: the access does not happen. -/
  | noSuchByte (addr : Nat)
  deriving DecidableEq, Repr

/-- Why the model gives an instruction no meaning. -/
inductive Refusal where
  /-- Raised by an arm of `exec` that has no meaning yet; no arm is left without one. Safe. -/
  | notModelled (mnemonic : String)
  deriving DecidableEq, Repr

/-- CORE right after reset, for an implementation whose VLU_LATENCY is `latency` (R10: a model takes it as an
argument). No request is in flight and `resp_valid` is 0 (R32); the values the spec leaves open are those of
`notes/assumptions/4.md`, `5.md` and `7.md`. -/
def State.resetAt (latency : Nat) : State where
  inp := { rst := false, reqValid := false, req := { op := 0#3, valIn := 0#64, winIn := 0#72, avail := 0#4 } }
  respValid := false
  resp := { status := 0#2, kOut := 0#4, lenOut := 0#4, valOut := 0#64, encOut := 0#72 }
  pipe := List.replicate latency none
  answered := none
  buf := { len := 0, cells := [] }
  draws := 0

/-- CORE right after reset, in its combinational form VLU_LATENCY = 0 (R197; `notes/assumptions/2.md`). -/
def State.reset : State := State.resetAt 0

end Sys2Proof.Machine
end

