-- ==== Sys2Proof/Machine/Flags.lean ====
section
/-! DEFINITION. The status codes of `spec/60_exceptions.md` R170. CORE has no flags and no condition codes: the `status`
port is its only condition indicator (`spec/10_state.md` R30). -/

namespace Sys2Proof.Machine

/-- The code of each status (R170). -/
def Status.code : Status → StatusCode
  | .ok => 0b00#2
  | .truncatedInput => 0b01#2
  | .invalidDescriptor => 0b10#2
  | .illegalOp => 0b11#2

end Sys2Proof.Machine
end

