-- ==== Sys2Proof/Machine/Operands.lean ====
section
/-! DEFINITION. How the operations read the bytes of their operands: window lanes as unsigned numbers (`spec/30_encoding.md`
R63) and the lanes of a byte bus as a byte list (`spec/10_state.md` R25). -/

namespace Sys2Proof.Machine

/-- `u[i]` of R140: lane `i` of the window, read as an unsigned number. -/
def windowByte (u : Bus) (i : Nat) : Nat := (lane u i).toNat

/-- Lanes `0 .. n - 1` of a byte bus. -/
def lanes (bus : Bus) (n : Nat) : List Byte := (List.range n).map (lane bus)

/-- `avail_abs` of R42: how many lanes a window fill at `offset` of a buffer of `len` bytes makes valid. -/
def availAt (len offset : Nat) : Nat :=
  if offset < len then min Config.unitMaxBytes (len - offset) else 0

end Sys2Proof.Machine
end

