-- ==== Sys2Proof/Machine/Ops.lean ====
section
/-! DEFINITION. The shared operations: responses, the clock cycle that carries them from the request to the output ports
(`spec/70_reset_and_hazards.md` R190 to R197), BUF and its primitives (`spec/20_memory.md` R40), and the failure response
(`spec/60_exceptions.md` R175), which is all that CORE has for an exception (R177): there is nothing to save, no handler
and no return (R178). -/

namespace Sys2Proof.Machine

/-! ## Responses -/

/-- The response every operation starts from: status OK, and every port that the operation does not name driven to 0
(R27). -/
def okResponse : Response :=
  { status := Status.code .ok, kOut := 0#4, lenOut := 0#4, valOut := 0#64, encOut := 0#72 }

/-- The response of a failed request: its status, and 0 on every data port (R175). -/
def failResponse (e : Status) : Response := { okResponse with status := e.code }

/-- What stands on the data ports in the `n`-th silent cycle: any value (R32). That two COREs of one system with equal `n`
show equal values is the model's: DESIGN CHOICE, unsafe (`notes/assumptions/18.md`). -/
def idleResponse (n : Nat) : Response :=
  { status := Config.idleStatus n, kOut := Config.idleK n, lenOut := Config.idleLen n,
    valOut := Config.idleVal n, encOut := Config.idleEnc n }

/-! ## The clock cycle -/

/-- Present the response of `f` on the output ports, with `resp_valid` = 1 (R196, R197). -/
def State.present (s : State) (f : InFlight) : State :=
  { s with respValid := true, resp := f.resp, answered := some f.req }

/-- A cycle without a response: `resp_valid` = 0 and the data ports hold any value (R32). -/
def State.silent (s : State) : State :=
  { s with respValid := false, resp := idleResponse s.draws, answered := none, draws := s.draws + 1 }

/-- The output ports in a cycle in which the slot `f` of the flight falls due. -/
def State.emit (s : State) : Option InFlight → State
  | some f => s.present f
  | none => s.silent

/-- One cycle without reset: `e` enters the flight and the oldest slot leaves it (R197). With VLU_LATENCY = 0 there is no
flight, and `e` is answered in its own cycle. -/
def State.advance (s : State) (e : Option InFlight) : State :=
  match s.pipe with
  | [] => s.emit e
  | f :: rest => { s.emit f with pipe := rest ++ [e] }

/-- Accept the request on the ports; `r` is the response it gets VLU_LATENCY cycles from now (R197). -/
def State.accept (s : State) (r : Response) : State := s.advance (some { req := s.inp.req, resp := r })

/-- A cycle with `rst` = 0 in which no request is presented (R197). -/
def State.idleCycle (s : State) : State := s.advance none

/-- A cycle with `rst` = 1: the request on the ports is not accepted, every request in flight is discarded, and
`resp_valid` is 0 (R190, R191, R32). -/
def State.resetCycle (s : State) : State :=
  { s.silent with pipe := List.replicate s.pipe.length none }

/-- A cycle whose request has a reserved `op`: the ILLEGAL_OP response and no other effect (R173). -/
def State.illegalOpCycle (s : State) : State := s.accept (failResponse .illegalOp)

/-! ## BUF -/

/-- What an index of BUF that is not listed reads as. BUF is a whole byte sequence (R40): this is the form of the list,
not the contents of an unwritten byte (`notes/assumptions/8.md`). -/
def unlistedByte : Byte := 0x00#8

/-- The byte listed for an address. -/
def cellAt (addr : Nat) : List Host.Cell → Byte
  | [] => unlistedByte
  | (x, b) :: rest => if x = addr then b else cellAt addr rest

/-- The list with the byte at `addr` replaced, in the canonical form. -/
def setCell (addr : Nat) (b : Byte) : List Host.Cell → List Host.Cell
  | [] => if b = unlistedByte then [] else [(addr, b)]
  | (x, y) :: rest =>
    if addr < x then (if b = unlistedByte then (x, y) :: rest else (addr, b) :: (x, y) :: rest)
    else if addr = x then (if b = unlistedByte then rest else (addr, b) :: rest)
    else (x, y) :: setCell addr b rest

/-- The canonical form: addresses strictly rising, all below the length, and no entry that says what an unlisted index
reads as. -/
abbrev Memory.wf (m : Memory) : Prop :=
  m.cells.Pairwise (fun c d => c.1 < d.1) ∧ ∀ c ∈ m.cells, c.1 < m.len ∧ c.2 ≠ unlistedByte

/-- MemRead(addr, 1) of R13 and R40: the byte at an index below the length. -/
def Memory.read (m : Memory) (addr : Nat) : Except Fault Byte :=
  if addr < m.len then .ok (cellAt addr m.cells) else .error (.noSuchByte addr)

/-- MemWrite(addr, 1, b) of R13, a step of the requester: it replaces a byte of BUF, or adds the next one
(`notes/assumptions/9.md`), and every later read sees it (`notes/assumptions/19.md`). CORE never does it (R41). -/
def Memory.write (m : Memory) (addr : Nat) (b : Byte) : Except Fault Memory :=
  if addr ≤ m.len then .ok { len := max m.len (addr + 1), cells := setCell addr b m.cells }
  else .error (.noSuchByte addr)

/-- MemWrite of a byte list, lowest index first. -/
def Memory.writeBytes (m : Memory) (addr : Nat) : List Byte → Except Fault Memory
  | [] => .ok m
  | b :: rest =>
    match m.write addr b with
    | .ok m' => m'.writeBytes (addr + 1) rest
    | .error e => .error e

/-- BUF holding exactly the given bytes. -/
def Memory.ofBytes (bytes : List Byte) : Memory :=
  { len := bytes.length,
    cells := ((bytes.zipIdx).map fun p => ((p.2, p.1) : Host.Cell)).filter fun c => c.2 ≠ unlistedByte }

/-- The bytes of BUF, lowest index first. -/
def Memory.bytes (m : Memory) : List Byte := (List.range m.len).map fun i => cellAt i m.cells

end Sys2Proof.Machine
end

