-- ==== Sys2Proof/Machine/Classifier.lean ====
section
/-! DEFINITION. The length classifier (`spec/40_classifier.md`): KV, KD, and the meanings of CLASSIFY_VALUE and
CLASSIFY_DESC. -/

namespace Sys2Proof.Machine

/-- B(k) of R74: how many value bits a unit of continuation count `k` holds. -/
def budget (k : Nat) : Nat := if k = Config.kMax then 64 else 7 + 7 * k

/-- KV of R100: the least `k` below 8 whose budget holds `v`, and 8 when none does. -/
def kv (v : Nat) : Nat :=
  match (List.range Config.kMax).find? fun k => decide (v < 2 ^ budget k) with
  | some k => k
  | none => Config.kMax

/-- The loop of R103: go on counting from bit `k` while the bit is set, for at most `fuel` bits. -/
def runFrom (b : Byte) (k : Nat) : Nat → Nat
  | 0 => k
  | fuel + 1 => if b.getLsbD k then runFrom b (k + 1) fuel else k

/-- KD of R103, `trailing_ones` of R14: the number of consecutive set bits from bit 0. -/
def kd (b : Byte) : Nat := runFrom b 0 Config.kMax

/-- The response of CLASSIFY_VALUE (R101). -/
def classifyValueResponse (v : Value) : Response :=
  { okResponse with kOut := BitVec.ofNat 4 (kv v.toNat) }

/-- The response of CLASSIFY_DESC (R104). The terminator check of R105 can never fail, so there is no other status. -/
def classifyDescResponse (b : Byte) : Response :=
  { okResponse with kOut := BitVec.ofNat 4 (kd b) }

/-- CLASSIFY_VALUE (R101). -/
def execClassifyValue (v : Value) (s : State) : Host.Outcome State Fault Refusal :=
  .next (s.accept (classifyValueResponse v))

/-- CLASSIFY_DESC (R104). -/
def execClassifyDesc (b : Byte) (s : State) : Host.Outcome State Fault Refusal :=
  .next (s.accept (classifyDescResponse b))

end Sys2Proof.Machine
end

