-- ==== Sys2Proof/Machine/Decoder.lean ====
section
/-! DEFINITION. The decoder (`spec/42_decoder.md`): DEC and the meaning of DECODE. -/

namespace Sys2Proof.Machine

/-- What DEC of R140 answers. -/
inductive DecResult where
  /-- The value, and how many bytes it used. -/
  | ok (value consumed : Nat)
  /-- TRUNCATED_INPUT. -/
  | truncated
  deriving DecidableEq, Repr

/-- The payload of R144 and R145: bytes `1 .. n` of the window, byte `j` weighted by `2^(shift + 8(j-1))`. -/
def payloadSum (u : Bus) (shift n : Nat) : Nat :=
  ((List.range n).map fun j => windowByte u (j + 1) <<< (shift + 8 * j)).sum

/-- The value the byte-to-integer compositor assembles for continuation count `k` (R144, R145). -/
def composite (u : Bus) (k : Nat) : Nat :=
  if k = Config.kMax then payloadSum u 0 8 else (windowByte u 0 >>> (k + 1)) + payloadSum u (7 - k) k

/-- DEC of R140, over a window and a count of valid lanes. -/
def dec (u : Bus) (a : Nat) : DecResult :=
  if a = 0 then .truncated
  else if a < kd (lane u 0) + 1 then .truncated
  else .ok (composite u (kd (lane u 0))) (kd (lane u 0) + 1)

/-- The response of DECODE (R148). -/
def decodeResponse (u : Bus) (a : Nat) : Response :=
  match dec u a with
  | .ok value consumed => { okResponse with lenOut := BitVec.ofNat 4 consumed, valOut := BitVec.ofNat 64 value }
  | .truncated => failResponse .truncatedInput

/-- DECODE (R148). -/
def execDecode (u : Bus) (a : Nat) (s : State) : Host.Outcome State Fault Refusal :=
  .next (s.accept (decodeResponse u a))

end Sys2Proof.Machine
end

