-- ==== Sys2Proof/Machine/Encoder.lean ====
section
/-! DEFINITION. The encoder (`spec/41_encoder.md`): ENC, LEN, and the meanings of ENCODE and ENCODED_LENGTH. -/

namespace Sys2Proof.Machine

/-- The descriptor byte of R120 for continuation count `k`: the run, the terminator and the low bits of `v`. -/
def descriptor (k v : Nat) : Byte :=
  if k = Config.kMax then 0xFF#8
  else BitVec.ofNat 8 ((2 ^ k - 1) ||| ((v % 2 ^ (7 - k)) <<< (k + 1)))

/-- Payload byte `j + 1` of R120 for continuation count `k`. -/
def payloadByte (k v j : Nat) : Byte :=
  if k = Config.kMax then BitVec.ofNat 8 (v >>> (8 * j)) else BitVec.ofNat 8 (v >>> ((7 - k) + 8 * j))

/-- The unit of continuation count `k` that holds `v` (R76, R77). It is canonical when `k = KV(v)` and overlong when `k`
is larger (R80). -/
def unitOf (k v : Nat) : List Byte := descriptor k v :: (List.range k).map (payloadByte k v)

/-- ENC of R120: the canonical unit. -/
def enc (v : Nat) : List Byte := unitOf (kv v) v

/-- LEN of R126. -/
def encLen (v : Nat) : Nat := kv v + 1

/-- The response of ENCODE (R121): the unit in the low lanes, `0x00` in the others, and its length. -/
def encodeResponse (v : Value) : Response :=
  { okResponse with lenOut := BitVec.ofNat 4 (enc v.toNat).length, encOut := packLanes (enc v.toNat) }

/-- The response of ENCODED_LENGTH (R127). -/
def encodedLengthResponse (v : Value) : Response :=
  { okResponse with lenOut := BitVec.ofNat 4 (encLen v.toNat) }

/-- ENCODE (R121). -/
def execEncode (v : Value) (s : State) : Host.Outcome State Fault Refusal :=
  .next (s.accept (encodeResponse v))

/-- ENCODED_LENGTH (R127). -/
def execEncodedLength (v : Value) (s : State) : Host.Outcome State Fault Refusal :=
  .next (s.accept (encodedLengthResponse v))

end Sys2Proof.Machine
end

