-- ==== Sys2Proof/Machine/Dispatch.lean ====
section
/-! DEFINITION. The effect of each instruction: one arm per constructor of Instr, each one call of its meaning. -/

namespace Sys2Proof.Machine

/-- The effect of instruction `i` in a cycle in which its request is accepted. -/
def exec (i : Instr) (s : State) : Host.Outcome State Fault Refusal :=
  match i with
  | .classifyValue v => Sys2Proof.Machine.execClassifyValue v s
  | .classifyDesc b => Sys2Proof.Machine.execClassifyDesc b s
  | .encode v => Sys2Proof.Machine.execEncode v s
  | .decode u a => Sys2Proof.Machine.execDecode u a s
  | .encodedLength v => Sys2Proof.Machine.execEncodedLength v s

end Sys2Proof.Machine
end

