-- ==== Sys2Proof/Machine/Step.lean ====
section
/-! DEFINITION. One step is one clock cycle (`notes/assumptions/1.md`): a rising edge of `clk` with the input ports as
they stand. -/

namespace Sys2Proof.Machine

/-- One clock cycle. A cycle with `rst` = 1 resets CORE (R190); else a cycle with `req_valid` = 1 accepts the request on
the ports (R197), which runs the operation its `op` selects (R60) or gets the ILLEGAL_OP response (R173); else no request
is accepted. -/
def step (s : State) : Host.Outcome State Fault Refusal :=
  if s.inp.rst then .next s.resetCycle
  else if s.inp.reqValid then
    match decode s.inp.req with
    | .ok i => exec i s
    | .error (.reservedOp _) => .next s.illegalOpCycle
  else .next s.idleCycle

/-- `s` with the request of the word `w` on the ports, `req_valid` = 1 and `rst` = 0, so that the next step accepts
exactly that request (`notes/assumptions/13.md`). -/
def State.withFetchWord (s : State) (nbits w : Nat) : State :=
  { s with inp := { rst := false, reqValid := true, req := requestOfWord nbits w } }

end Sys2Proof.Machine
end

