-- ==== Sys2Proof/Machine/Requester.lean ====
section
/-! DEFINITION. What the requester does between CORE's cycles: it drives the input ports (`spec/10_state.md` R23), owns
BUF (`spec/20_memory.md` R40), and makes the window fill and the request of the pseudo-operation DECODE_AT
(`spec/20_memory.md` R42, `spec/30_encoding.md` R65). None of it is an operation of CORE. -/

namespace Sys2Proof.Machine

/-- The requester drives the input ports for the next cycle. -/
def State.drive (s : State) (d : Inputs) : State := { s with inp := d }

/-- The values that index `addr` held during a window fill: the one BUF holds before it, then one for each write that
another agent makes to that index while the fill reads (R50). -/
def heldDuring (before : Byte) (race : List Host.Cell) (addr : Nat) : List Byte :=
  before :: (race.filter fun c => c.1 = addr).map fun c => c.2

/-- The value that a racing read returns: any of the held ones, which one is a free value (R50, R47). -/
def racePick (held : List Byte) (choice : Nat) : Byte := held.getD (choice % held.length) 0x00#8

/-- Lane `i` of window fill number `n` at `offset`, when `avail` lanes are valid (R42): a byte of BUF, or any byte. -/
def fillLane (m : Memory) (race : List Host.Cell) (n offset avail i : Nat) : Except Fault Byte :=
  if i < avail then
    match m.read (offset + i) with
    | .ok b => .ok (racePick (heldDuring b race (offset + i)) (Config.raceChoice n i))
    | .error e => .error e
  else .ok (Config.unfilledLane n i)

/-- Lanes `i`, `i + 1`, …, as many as the last argument says. -/
def fillLanes (m : Memory) (race : List Host.Cell) (n offset avail i : Nat) : Nat → Except Fault (List Byte)
  | 0 => .ok []
  | k + 1 =>
    match fillLane m race n offset avail i with
    | .error e => .error e
    | .ok b =>
      match fillLanes m race n offset avail (i + 1) k with
      | .error e => .error e
      | .ok rest => .ok (b :: rest)

/-- BUF after the writes that another agent made to its bytes during a fill (`notes/assumptions/10.md`, and `19.md` for the
fills after it). A write to an index that BUF does not have is no write to BUF. -/
def Memory.afterRace (m : Memory) : List Host.Cell → Memory
  | [] => m
  | c :: rest =>
    if c.1 < m.len then Memory.afterRace { m with cells := setCell c.1 c.2 m.cells } rest else m.afterRace rest

/-- The window fill of R42 at `offset`: it writes `win_in` and `avail`. `race` lists the writes that another agent makes
to BUF while the fill reads it; the requester's obligation is that there are none (R50, R195). Which held value a lane takes,
and what an invalid lane holds, is free; that two COREs with equal `draws`, BUF, offset and race get equal lanes is the
model's: DESIGN CHOICE, unsafe (`notes/assumptions/18.md`). -/
def State.fillWindow (s : State) (offset : Nat) (race : List Host.Cell) : Except Fault State :=
  match fillLanes s.buf race s.draws offset (availAt s.buf.len offset) 0 Config.unitMaxBytes with
  | .error e => .error e
  | .ok bytes =>
    .ok { s with
      inp := { s.inp with
        req := { s.inp.req with
          winIn := packLanes bytes, avail := BitVec.ofNat 4 (availAt s.buf.len offset) } }
      buf := s.buf.afterRace race
      draws := s.draws + 1 }

/-- `DECODE_AT BUF, offset` of R65: the window fill, and then a DECODE request on the ports. -/
def State.decodeAt (s : State) (offset : Nat) (race : List Host.Cell) : Except Fault State :=
  match s.fillWindow offset race with
  | .error e => .error e
  | .ok t => .ok (t.drive { rst := false, reqValid := true, req := { t.inp.req with op := 0b011#3 } })

/-- The requester's MemWrite into BUF: R13, and the `host:` lines of R67. That every later fill reads the stored bytes is the
model's, since R51 (D22) leaves the visibility of the caller's stores to its platform: DESIGN CHOICE, unsafe
(`notes/assumptions/19.md`). That BUF stays the requester's one buffer from decode to decode, and is overwritten or lengthened
but never shortened or replaced, is the model's too (R40, R41): DESIGN CHOICE, unsafe (`notes/assumptions/20.md`). -/
def State.hostWrite (s : State) (addr : Nat) (bytes : List Byte) : Except Fault State :=
  match s.buf.writeBytes addr bytes with
  | .error e => .error e
  | .ok m => .ok { s with buf := m }

end Sys2Proof.Machine
end

