-- ==== Sys2Proof/Machine/Signals.lean ====
section
/-! DEFINITION. The internal signals of `spec/10_state.md` R29, as functions of the request on the ports. None is held
from one transaction to the next, so none is a field of State. -/

namespace Sys2Proof.Machine

/-- `kv`, 4 bits: KV(val_in). -/
def signalKv (r : Request) : Count := BitVec.ofNat 4 (kv r.valIn.toNat)

/-- `kd`, 4 bits: KD(lane(win_in, 0)). -/
def signalKd (r : Request) : Count := BitVec.ofNat 4 (kd (lane r.winIn 0))

/-- `n`, 4 bits: the unit length that the descriptor implies. -/
def signalN (r : Request) : Count := signalKd r + 1#4

/-- `payload`, 64 bits: the value the compositor assembles. -/
def signalPayload (r : Request) : Value := BitVec.ofNat 64 (composite r.winIn (kd (lane r.winIn 0)))

/-- `unit`, 72 bits: ENC(val_in), lane 0 first. -/
def signalUnit (r : Request) : Bus := packLanes (enc r.valIn.toNat)

end Sys2Proof.Machine
end

