-- ==== Sys2Proof/Machine/System.lean ====
section
/-! DEFINITION. A system of N_INSTANCES ≥ 1 instances of CORE (`spec/60_exceptions.md` R184, `spec/00_scope.md` R10):
they share no state, so the system is the list of their states, and N_INSTANCES is its length. -/

namespace Sys2Proof.Machine

/-- One clock cycle of every instance. The spec leaves the unspecified ports of each instance any value (R32) and says nothing
of how two of them compare; the model draws all of them from the same free constants, indexed by each instance's own
`draws`: DESIGN CHOICE, unsafe (`notes/assumptions/18.md`). -/
def systemStep : List State → Host.Outcome (List State) Fault Refusal
  | [] => .next []
  | s :: rest =>
    match step s with
    | .fault e => .fault e
    | .refused r => .refused r
    | .next t =>
      match systemStep rest with
      | .next ts => .next (t :: ts)
      | .fault e => .fault e
      | .refused r => .refused r

end Sys2Proof.Machine
end

