-- ==== Sys2Proof/Safety.lean ====
section
/-! DEFINITION. The terms that claims about CORE use: the response function F of `spec/10_state.md` R26, runs under a
requester that drives the ports, what a good state is, and the requester's read loop. -/

namespace Sys2Proof.Machine

/-- F of R26: the response of a request, as a total function of its fields. -/
def responseF (r : Request) : Response :=
  match decode r with
  | .ok (.classifyValue v) => classifyValueResponse v
  | .ok (.classifyDesc b) => classifyDescResponse b
  | .ok (.encode v) => encodeResponse v
  | .ok (.decode u a) => decodeResponse u a
  | .ok (.encodedLength v) => encodedLengthResponse v
  | .error (.reservedOp _) => failResponse .illegalOp

/-- The slot that a cycle with `rst` = 0 puts into the flight: the request on the ports with its response, or nothing. -/
def slotOf (d : Inputs) : Option InFlight :=
  if d.reqValid then some { req := d.req, resp := responseF d.req } else none

/-- A run of one cycle for each entry of the list: the requester drives the ports with the entry, and CORE steps. -/
def runDrives : List Inputs → State → Host.Outcome State Fault Refusal
  | [], s => .next s
  | d :: rest, s =>
    match step (s.drive d) with
    | .next t => runDrives rest t
    | .fault e => .fault e
    | .refused r => .refused r

/-- The responses a run presents, one entry a cycle: the request and its response, or `none` where `resp_valid` = 0. -/
def responsesOf : List Inputs → State → List (Option InFlight)
  | [], _ => []
  | d :: rest, s =>
    match step (s.drive d) with
    | .next t =>
      (match t.answered with
        | some r => if t.respValid then some { req := r, resp := t.resp } else none
        | none => none) :: responsesOf rest t
    | .fault _ => []
    | .refused _ => []

/-- What stands on the output ports is either nothing (`resp_valid` = 0) or the response F of one request. -/
abbrev outputsGood (s : State) : Prop :=
  match s.answered with
  | some r => s.respValid = true ∧ s.resp = responseF r
  | none => s.respValid = false

/-- Every request in flight will get its own response. -/
abbrev flightGood (s : State) : Prop :=
  ∀ f : InFlight, some f ∈ s.pipe → f.resp = responseF f.req

/-- A good state: outputs and flight as R26 says, and BUF in its canonical form. -/
abbrev goodState (s : State) : Prop := outputsGood s ∧ flightGood s ∧ s.buf.wf

/-- The response of a requester's read at `offset`: DECODE_AT (R65) answered by F, with BUF stable during the fill. -/
def readAt (s : State) (offset : Nat) : Except Fault Response :=
  match s.decodeAt offset [] with
  | .ok t => .ok (responseF t.inp.req)
  | .error e => .error e

/-- The requester's loop of Program 1 of `spec/95_test_vectors.md` (R67): while the offset is inside BUF, DECODE_AT, record
`val_out` and advance by `len_out`. It answers the recorded values and the last offset, or `none` where a response is not
OK. `fuel` bounds the number of turns. -/
def readLoop (s : State) (offset : Nat) : Nat → Option (List Value × Nat)
  | 0 => if offset < s.buf.len then none else some ([], offset)
  | fuel + 1 =>
    if offset < s.buf.len then
      match readAt s offset with
      | .error _ => none
      | .ok r =>
        if r.status = Status.code .ok then
          match readLoop s (offset + r.lenOut.toNat) fuel with
          | some (vs, last) => some (r.valOut :: vs, last)
          | none => none
        else none
    else some ([], offset)

end Sys2Proof.Machine
end

