-- ==== Sys2Proof/Certificates/Slice0/Obligations.lean ====
section
/-! DEFINITION. The statements about CORE for the provers. A docstring names the rule a statement formalises; where the
spec marks that rule as derived, or the model made a choice, the docstring says so. -/

open Sys2Proof Sys2Proof.Machine

/-! ## The five operations and the reserved codes -/

/-- CLASSIFY_VALUE (R101): its code, its response on every value and in every state, and the rule's corner cases. R101 takes
its code from R60 and its zeros from R27, the spec's own decisions D3 and D6. -/
def Obligations.ClassifyValueResult : Prop :=
  (∀ r : Request, r.op = 0b000#3 → decode r = .ok (.classifyValue r.valIn)) ∧
  (∀ (v : Value) (s : State), exec (.classifyValue v) s = .next (s.accept
    { status := 0b00#2, kOut := BitVec.ofNat 4 (kv v.toNat), lenOut := 0#4, valOut := 0#64, encOut := 0#72 })) ∧
  (∀ v : Value, kv v.toNat ≤ 8) ∧ (∀ k < 8, kv (2 ^ (7 + 7 * k)) = k + 1) ∧
  kv 0 = 0 ∧ kv (2 ^ 56 - 1) = 7 ∧ kv (2 ^ 56) = 8 ∧ kv (2 ^ 64 - 1) = 8 ∧ kv 300 = 1

/-- CLASSIFY_DESC (R104): its code, its response on every byte and in every state, and the rule's corner cases. R104 takes its
code from R60 and its zeros from R27, the spec's own decisions D3 and D6. -/
def Obligations.ClassifyDescResult : Prop :=
  (∀ r : Request, r.op = 0b001#3 → decode r = .ok (.classifyDesc (lane r.winIn 0))) ∧
  (∀ (b : Byte) (s : State), exec (.classifyDesc b) s = .next (s.accept
    { status := 0b00#2, kOut := BitVec.ofNat 4 (kd b), lenOut := 0#4, valOut := 0#64, encOut := 0#72 })) ∧
  (∀ b : Byte, kd b ≤ 8) ∧ kd 0x00#8 = 0 ∧ kd 0xFE#8 = 0 ∧ kd 0x0A#8 = 0 ∧ kd 0x7F#8 = 7 ∧ kd 0xFF#8 = 8 ∧
  kd 0xBF#8 = 6 ∧ kd 0x07#8 = 3

/-- ENCODE (R121): its code, its response on every value and in every state, which byte stands in which lane of
`enc_out`, and the rule's corner cases. R121 takes its code from R60 and its zeros from R27 and D7, the spec's own decisions
D3, D6 and D7. -/
def Obligations.EncodeResult : Prop :=
  (∀ r : Request, r.op = 0b010#3 → decode r = .ok (.encode r.valIn)) ∧
  (∀ (v : Value) (s : State), exec (.encode v) s = .next (s.accept
    { status := 0b00#2, kOut := 0#4, lenOut := BitVec.ofNat 4 (encLen v.toNat), valOut := 0#64,
      encOut := packLanes (enc v.toNat) })) ∧
  (∀ v : Value, (enc v.toNat).length = encLen v.toNat ∧ 1 ≤ encLen v.toNat ∧ encLen v.toNat ≤ 9 ∧
    (∀ i < encLen v.toNat, (enc v.toNat)[i]? = some (lane (packLanes (enc v.toNat)) i)) ∧
    ∀ i < 9, encLen v.toNat ≤ i → lane (packLanes (enc v.toNat)) i = 0x00#8) ∧
  enc 0 = [0x00#8] ∧ enc 127 = [0xFE#8] ∧ enc 128 = [0x01#8, 0x02#8] ∧ enc 300 = [0xB1#8, 0x04#8] ∧
  enc (2 ^ 56 - 1) = 0x7F#8 :: List.replicate 7 0xFF#8 ∧
  enc (2 ^ 56) = 0xFF#8 :: List.replicate 7 0x00#8 ++ [0x01#8] ∧
  enc (2 ^ 64 - 1) = List.replicate 9 0xFF#8

/-- ENCODED_LENGTH (R127): its code, its response on every value and in every state, its agreement with ENCODE, and the
rule's corner cases. R127 takes its code from R60 and its zeros from R27, the spec's own decisions D3 and D6. -/
def Obligations.EncodedLengthResult : Prop :=
  (∀ r : Request, r.op = 0b100#3 → decode r = .ok (.encodedLength r.valIn)) ∧
  (∀ (v : Value) (s : State), exec (.encodedLength v) s = .next (s.accept
    { status := 0b00#2, kOut := 0#4, lenOut := BitVec.ofNat 4 (encLen v.toNat), valOut := 0#64, encOut := 0#72 })) ∧
  (∀ v : Value, 1 ≤ encLen v.toNat ∧ encLen v.toNat ≤ 9 ∧
    (encodedLengthResponse v).lenOut = (encodeResponse v).lenOut) ∧
  encLen 0 = 1 ∧ encLen 127 = 1 ∧ encLen 128 = 2 ∧ encLen (2 ^ 56 - 1) = 8 ∧ encLen (2 ^ 56) = 9 ∧
  encLen (2 ^ 64 - 1) = 9 ∧ encLen 0xDEADBEEF = 5

/-- DECODE (R148): its code, its response in every state for either answer of DEC, which answer DEC gives, and the rule's
corner cases. R148 takes its code from R60 and its zeros from R27 and R175, the spec's own decisions D3, D6 and D9. -/
def Obligations.DecodeResult : Prop :=
  (∀ r : Request, r.op = 0b011#3 → decode r = .ok (.decode r.winIn r.avail.toNat)) ∧
  (∀ (u : Bus) (a value consumed : Nat) (s : State), dec u a = .ok value consumed →
    exec (.decode u a) s = .next (s.accept
      { status := 0b00#2, kOut := 0#4, lenOut := BitVec.ofNat 4 consumed, valOut := BitVec.ofNat 64 value,
        encOut := 0#72 })) ∧
  (∀ (u : Bus) (a : Nat) (s : State), dec u a = .truncated →
    exec (.decode u a) s = .next (s.accept
      { status := 0b01#2, kOut := 0#4, lenOut := 0#4, valOut := 0#64, encOut := 0#72 })) ∧
  (∀ (u : Bus) (a : Nat), dec u a = .truncated ↔ a = 0 ∨ a < kd (lane u 0) + 1) ∧
  (∀ (u : Bus) (a : Nat), kd (lane u 0) + 1 ≤ a → dec u a = dec u (kd (lane u 0) + 1)) ∧
  (∀ (u : Bus) (a : Nat), 9 ≤ a → dec u a = dec u 9) ∧
  dec (packLanes [0x0A#8]) 1 = .ok 5 1 ∧ dec (packLanes [0x01#8]) 1 = .truncated ∧
  dec (packLanes (List.replicate 8 0xFF#8)) 8 = .truncated ∧
  dec (packLanes (List.replicate 9 0xFF#8)) 9 = .ok (2 ^ 64 - 1) 9 ∧
  dec (packLanes [0x01#8, 0x00#8]) 2 = .ok 0 2 ∧ dec (packLanes [0xB1#8, 0x04#8]) 2 = .ok 300 2

/-- DECODE completes with its value on every window that holds its whole unit, in every state (R144, R145, R146 as R148
uses them): the conditions are on the operands alone. -/
def Obligations.DecodeCompletesOnAWholeUnit : Prop :=
  ∀ (u : Bus) (a : Nat) (s : State), kd (lane u 0) + 1 ≤ a →
    exec (.decode u a) s = .next (s.accept
      { status := 0b00#2, kOut := 0#4, lenOut := BitVec.ofNat 4 (kd (lane u 0) + 1),
        valOut := BitVec.ofNat 64
          (if kd (lane u 0) = 8 then ∑ j ∈ Finset.range 8, (lane u (j + 1)).toNat * 2 ^ (8 * j)
           else (lane u 0).toNat / 2 ^ (kd (lane u 0) + 1) +
             ∑ j ∈ Finset.range (kd (lane u 0)), (lane u (j + 1)).toNat * 2 ^ ((7 - kd (lane u 0)) + 8 * j)),
        encOut := 0#72 })

/-- A request with a reserved `op` gets the ILLEGAL_OP response and has no other effect on CORE or BUF (R173; the spec marks
the rule as its own decision D4). That a step leaves the input ports as they are is the model's choice
(`notes/assumptions/12.md`). -/
def Obligations.ReservedCodesAnswerIllegalOp : Prop :=
  ∀ s : State, s.inp.rst = false → s.inp.reqValid = true →
    (s.inp.req.op = 0b101#3 ∨ s.inp.req.op = 0b110#3 ∨ s.inp.req.op = 0b111#3) →
    ∃ t, step s = .next t ∧
      t = s.accept { status := 0b11#2, kOut := 0#4, lenOut := 0#4, valOut := 0#64, encOut := 0#72 } ∧
      t.inp = s.inp ∧ t.buf = s.buf

/-! ## Requests and instructions -/

/-- The whole `op` table (R60; the spec's own decision D3): which operation each code selects, and that the three reserved
codes select none. -/
def Obligations.OperationSelectTable : Prop :=
  ∀ (v : Value) (w : Bus) (a : Count),
    decode ⟨0b000#3, v, w, a⟩ = .ok (.classifyValue v) ∧
    decode ⟨0b001#3, v, w, a⟩ = .ok (.classifyDesc (lane w 0)) ∧
    decode ⟨0b010#3, v, w, a⟩ = .ok (.encode v) ∧
    decode ⟨0b011#3, v, w, a⟩ = .ok (.decode w a.toNat) ∧
    decode ⟨0b100#3, v, w, a⟩ = .ok (.encodedLength v) ∧
    decode ⟨0b101#3, v, w, a⟩ = .error (.reservedOp 0b101#3) ∧
    decode ⟨0b110#3, v, w, a⟩ = .error (.reservedOp 0b110#3) ∧
    decode ⟨0b111#3, v, w, a⟩ = .error (.reservedOp 0b111#3)

/-- The eight words of `op` decode as R60 says (the spec's own decision D3): five to their instructions, three to none. That a
word of the table leaves every operand port 0, so that the operands are 0, is the model's choice
(`notes/assumptions/14.md`). -/
def Obligations.TableWordsDecode : Prop :=
  decodeTableWord 8 0b000 = some (.classifyValue 0#64) ∧ decodeTableWord 8 0b001 = some (.classifyDesc 0x00#8) ∧
  decodeTableWord 8 0b010 = some (.encode 0#64) ∧ decodeTableWord 8 0b011 = some (.decode 0#72 0) ∧
  decodeTableWord 8 0b100 = some (.encodedLength 0#64) ∧ decodeTableWord 8 0b101 = none ∧
  decodeTableWord 8 0b110 = none ∧ decodeTableWord 8 0b111 = none

/-- Decode and encode agree: every well-formed instruction is read back with every operand from the request that carries
it, and every request that selects an instruction is a well-formed one whose carrying request has the same code and
gets the same response. -/
def Obligations.DecodeAndEncodeAgree : Prop :=
  (∀ i : Instr, WellFormed i → decode (encode i) = .ok i) ∧
  ∀ (r : Request) (i : Instr), decode r = .ok i →
    WellFormed i ∧ (encode i).op = r.op ∧ responseF (encode i) = responseF r

/-- In a cycle without reset whose request selects an instruction, the step is that instruction's effect and nothing
more; no step moves a program counter, because CORE has none (R21). -/
def Obligations.StepRunsTheDecodedInstruction : Prop :=
  ∀ (s : State) (i : Instr), s.inp.rst = false → s.inp.reqValid = true → decode s.inp.req = .ok i →
    step s = exec i s ∧ WellFormed i

/-- The step after a word is placed on the ports runs the instruction the decoder reads from that word (the model's
choice, `notes/assumptions/13.md`, and `14.md` for what a word carries). -/
def Obligations.PlacedWordRuns : Prop :=
  ∀ (s : State) (nbits w : Nat) (i : Instr), decodeTableWord nbits w = some i →
    step (s.withFetchWord nbits w) = exec i (s.withFetchWord nbits w) ∧
    (s.withFetchWord nbits w).pipe = s.pipe ∧ (s.withFetchWord nbits w).buf = s.buf

/-! ## The classifier -/

/-- KV is the pseudocode of R100: the least `k` below 8 with `v < 2^(7 + 7k)`, and 8 when there is none. -/
def Obligations.KvIsTheLeastBudget : Prop :=
  ∀ v : Nat, v < 2 ^ 64 →
    (∀ k < 8, kv v = k ↔ v < 2 ^ (7 + 7 * k) ∧ ∀ j < k, ¬ v < 2 ^ (7 + 7 * j)) ∧
    (kv v = 8 ↔ ∀ j < 8, ¬ v < 2 ^ (7 + 7 * j))

/-- The table and the closed formula of R102, which the spec marks as derived from R100. -/
def Obligations.KvTableAndFormula : Prop :=
  ∀ v : Nat, v < 2 ^ 64 →
    kv v = (if v ≤ 0x7F then 0 else if v ≤ 0x3FFF then 1 else if v ≤ 0x1FFFFF then 2 else if v ≤ 0xFFFFFFF then 3
      else if v ≤ 0x7FFFFFFFF then 4 else if v ≤ 0x3FFFFFFFFFF then 5 else if v ≤ 0x1FFFFFFFFFFFF then 6
      else if v ≤ 0xFFFFFFFFFFFFFF then 7 else 8) ∧
    kv v = min 8 ((Nat.size v + 6) / 7 - 1)

/-- KV is monotone (R106, which the spec marks as derived). -/
def Obligations.KvIsMonotone : Prop :=
  ∀ v w : Nat, v ≤ w → kv v ≤ kv w

/-- KD is `trailing_ones` (R103, R14): bits `0 .. KD - 1` are set and, below 8, bit KD is clear; it is 8 for `0xFF`
alone. -/
def Obligations.KdCountsTheRun : Prop :=
  ∀ b : Byte, kd b ≤ 8 ∧ (∀ i < kd b, b.getLsbD i = true) ∧ (kd b < 8 → b.getLsbD (kd b) = false) ∧
    (kd b = 8 ↔ b = 0xFF#8)

/-- Every byte is the descriptor of exactly one `k`, with the counts and the residues of R75 and R78, which the spec marks
as derived. -/
def Obligations.EveryByteIsOneDescriptor : Prop :=
  (∀ b : Byte, ∀ k < 8, kd b = k ↔ b.toNat % 2 ^ (k + 1) = 2 ^ k - 1) ∧
  (List.range 9).map (fun k => ((List.range 256).filter fun n => kd (BitVec.ofNat 8 n) = k).length) =
    [128, 64, 32, 16, 8, 4, 2, 1, 1]

/-! ## The encoded unit -/

/-- The data-bit budgets of R74. -/
def Obligations.BudgetTable : Prop :=
  (∀ k ≤ 7, budget k = (7 - k) + 8 * k ∧ budget k = 7 + 7 * k) ∧ budget 8 = 64 ∧
  (List.range 9).map budget = [7, 14, 21, 28, 35, 42, 49, 56, 64]

/-- Every unit has the length of R73 and the descriptor of R71 and R72: the run, the terminator, the maximal form `0xFF`, and
data bits above the terminator that hold any value. -/
def Obligations.UnitsHaveTheirForm : Prop :=
  ∀ k ≤ 8,
    (∀ v : Nat, (unitOf k v).length = k + 1 ∧ (unitOf k v)[0]? = some (descriptor k v) ∧
      (∀ i < k, i < 8 → (descriptor k v).getLsbD i = true) ∧ (k ≤ 7 → (descriptor k v).getLsbD k = false) ∧
      (k = 8 → descriptor k v = 0xFF#8) ∧ kd (descriptor k v) = k) ∧
    ∀ b : Byte, kd b = k → ∃ v < 2 ^ (7 - k), descriptor k v = b

/-- Where each value bit stands in a unit (R76 for `k ≤ 7`, R77 for `k = 8`). -/
def Obligations.ValueBitPlacement : Prop :=
  ∀ v : Nat, v < 2 ^ 64 →
    (∀ k ≤ 7, ∀ p < 7 + 7 * k,
      (p < 7 - k → ((unitOf k v).getD 0 0#8).getLsbD (k + 1 + p) = v.testBit p) ∧
      (7 - k ≤ p → ((unitOf k v).getD (1 + (p - (7 - k)) / 8) 0#8).getLsbD ((p - (7 - k)) % 8) = v.testBit p)) ∧
    (unitOf 8 v).getD 0 0#8 = 0xFF#8 ∧
    ∀ p < 64, ((unitOf 8 v).getD (1 + p / 8) 0#8).getLsbD (p % 8) = v.testBit p

/-- ENC is the pseudocode of R120, byte for byte as unbounded natural numbers. -/
def Obligations.EncIsThePseudocode : Prop :=
  ∀ v : Nat, v < 2 ^ 64 →
    (kv v = 8 → (enc v).map BitVec.toNat = 0xFF :: (List.range 8).map fun j => (v >>> (8 * j)) % 2 ^ 8) ∧
    (kv v ≤ 7 → (enc v).map BitVec.toNat =
      ((2 ^ kv v - 1) ||| ((v % 2 ^ (7 - kv v)) <<< (kv v + 1))) ::
        (List.range (kv v)).map fun j => (v >>> ((7 - kv v) + 8 * j)) % 2 ^ 8)

/-- The three agreements of R128, which the spec marks as derived. -/
def Obligations.LengthsAgree : Prop :=
  ∀ v : Value,
    (responseF (encode (.encode v))).lenOut.toNat = encLen v.toNat ∧
    (responseF (encode (.encodedLength v))).lenOut.toNat = encLen v.toNat ∧
    (enc v.toNat).length = encLen v.toNat ∧
    kd (lane (responseF (encode (.encode v))).encOut 0) = kv v.toNat

/-- Minimality (R129, which the spec marks as derived): LEN is the least unit size whose budget holds the value. -/
def Obligations.EncodedLengthIsMinimal : Prop :=
  ∀ v : Value,
    (∃ k ≤ 8, encLen v.toNat = k + 1 ∧ v.toNat < 2 ^ budget k) ∧
    ∀ k ≤ 8, v.toNat < 2 ^ budget k → encLen v.toNat ≤ k + 1

/-- ENC is injective (R125, which the spec marks as derived). -/
def Obligations.EncIsInjective : Prop :=
  ∀ v w : Value, enc v.toNat = enc w.toNat → v = w

/-! ## The decoder -/

/-- DEC is the pseudocode of R140, with its steps R141, R143, R144, R145 and R146, over unbounded natural numbers. -/
def Obligations.DecIsThePseudocode : Prop :=
  ∀ (u : Bus) (a k : Nat), k = kd (lane u 0) →
    (a = 0 → dec u a = .truncated) ∧
    (a < k + 1 → dec u a = .truncated) ∧
    (k + 1 ≤ a → k = 8 →
      dec u a = .ok (∑ j ∈ Finset.range 8, (lane u (j + 1)).toNat <<< (8 * j)) 9) ∧
    (k + 1 ≤ a → k ≤ 7 →
      dec u a = .ok (((lane u 0).toNat >>> (k + 1)) +
        ∑ j ∈ Finset.range k, (lane u (j + 1)).toNat <<< ((7 - k) + 8 * j)) (k + 1)) ∧
    (9 ≤ a → dec u a = dec u 9)

/-- Every unit that can hold a value decodes to that value with its own length, canonical (R150, which the spec marks as
derived) or overlong (R147, the spec's own decision D10), whatever larger count is given. -/
def Obligations.UnitsDecodeToTheirValue : Prop :=
  ∀ (v : Value) (k a : Nat), kv v.toNat ≤ k → k ≤ 8 → k + 1 ≤ a →
    dec (packLanes (unitOf k v.toNat)) a = .ok v.toNat (k + 1)

/-- A decoded unit is the encoder's output exactly when its count is the canonical one, and the decoder is injective on such
units (R153, which the spec marks as derived). -/
def Obligations.CanonicalExactlyWhenEncoded : Prop :=
  (∀ (u : Bus) (a w n : Nat), dec u a = .ok w n → (enc w = lanes u n ↔ kd (lane u 0) = kv w)) ∧
  ∀ (u u' : Bus) (a a' w n n' : Nat), dec u a = .ok w n → dec u' a' = .ok w n' →
    kd (lane u 0) = kv w → kd (lane u' 0) = kv w → lanes u n = lanes u' n'

/-- A decoded value fits its budget, hence 64 bits (R151, which the spec marks as derived): the compositor never
truncates. -/
def Obligations.DecodedValueFits : Prop :=
  ∀ (u : Bus) (a w n : Nat), dec u a = .ok w n →
    w < 2 ^ budget (kd (lane u 0)) ∧ w < 2 ^ 64 ∧ 1 ≤ n ∧ n ≤ 9

/-- DEC depends on nothing when no byte is valid, on the descriptor alone when the unit is cut short, and on the unit alone
when it is whole (R152, which the spec marks as derived). -/
def Obligations.DecDependsOnItsUnitAlone : Prop :=
  (∀ u u' : Bus, dec u 0 = dec u' 0) ∧
  (∀ (u u' : Bus) (a : Nat), lane u 0 = lane u' 0 → a < kd (lane u 0) + 1 → dec u a = dec u' a) ∧
  ∀ (u u' : Bus) (a a' w n : Nat), dec u a = .ok w n → (∀ i < n, lane u i = lane u' i) → n ≤ a' →
    dec u' a' = .ok w n

/-- A descriptor with a run, alone in the window, is cut short (R154, which the spec marks as derived). -/
def Obligations.DescriptorAloneIsTruncated : Prop :=
  ∀ u : Bus, 1 ≤ kd (lane u 0) → dec u 1 = .truncated

/-! ## The response function -/

/-- The status codes of R170 and which operations produce them (the spec's own decision D5). -/
def Obligations.StatusCodesAndProducers : Prop :=
  Status.code .ok = 0b00#2 ∧ Status.code .truncatedInput = 0b01#2 ∧ Status.code .invalidDescriptor = 0b10#2 ∧
  Status.code .illegalOp = 0b11#2 ∧
  ∀ r : Request,
    ((responseF r).status = Status.code .ok → r.op.toNat ≤ 4) ∧
    ((responseF r).status = Status.code .truncatedInput → r.op = 0b011#3) ∧
    (responseF r).status ≠ Status.code .invalidDescriptor ∧
    ((responseF r).status = Status.code .illegalOp → 5 ≤ r.op.toNat)

/-- The four operations other than DECODE always answer OK (R174). -/
def Obligations.OnlyDecodeCanFail : Prop :=
  ∀ r : Request, r.op = 0b000#3 ∨ r.op = 0b001#3 ∨ r.op = 0b010#3 ∨ r.op = 0b100#3 →
    (responseF r).status = Status.code .ok

/-- Each status is the one of the first check that applies (R176; the spec's own decision D24). -/
def Obligations.StatusFollowsTheOrderOfChecks : Prop :=
  ∀ r : Request, (responseF r).status =
    if r.op = 0b101#3 ∨ r.op = 0b110#3 ∨ r.op = 0b111#3 then Status.code .illegalOp
    else if r.op = 0b011#3 ∧ r.avail = 0#4 then Status.code .truncatedInput
    else if r.op = 0b011#3 ∧ r.avail.toNat < kd (lane r.winIn 0) + 1 then Status.code .truncatedInput
    else Status.code .ok

/-- A response whose status is not OK carries no result (R175; the spec's own decision D9). -/
def Obligations.FailedResponsesCarryNothing : Prop :=
  ∀ r : Request, (responseF r).status ≠ Status.code .ok →
    (responseF r).kOut = 0#4 ∧ (responseF r).lenOut = 0#4 ∧ (responseF r).valOut = 0#64 ∧ (responseF r).encOut = 0#72

/-- An output port that the operation does not name is 0 (R27; the spec's own decision D6). -/
def Obligations.UnnamedOutputsAreZero : Prop :=
  ∀ r : Request,
    (r.op = 0b000#3 ∨ r.op = 0b001#3 →
      (responseF r).lenOut = 0#4 ∧ (responseF r).valOut = 0#64 ∧ (responseF r).encOut = 0#72) ∧
    (r.op = 0b010#3 → (responseF r).kOut = 0#4 ∧ (responseF r).valOut = 0#64) ∧
    (r.op = 0b011#3 → (responseF r).kOut = 0#4 ∧ (responseF r).encOut = 0#72) ∧
    (r.op = 0b100#3 → (responseF r).kOut = 0#4 ∧ (responseF r).valOut = 0#64 ∧ (responseF r).encOut = 0#72) ∧
    (5 ≤ r.op.toNat → (responseF r).kOut = 0#4 ∧ (responseF r).lenOut = 0#4 ∧ (responseF r).valOut = 0#64 ∧
      (responseF r).encOut = 0#72)

/-- The response does not depend on a port the operation does not use (R28; the spec's own decision D2). -/
def Obligations.UnusedPortsAreIgnored : Prop :=
  ∀ r q : Request, r.op = q.op →
    (r.op = 0b000#3 ∨ r.op = 0b010#3 ∨ r.op = 0b100#3 → r.valIn = q.valIn → responseF r = responseF q) ∧
    (r.op = 0b001#3 → lane r.winIn 0 = lane q.winIn 0 → responseF r = responseF q) ∧
    (r.op = 0b011#3 → r.avail = q.avail → (∀ i < 9, i < r.avail.toNat → lane r.winIn i = lane q.winIn i) →
      responseF r = responseF q) ∧
    (5 ≤ r.op.toNat → responseF r = responseF q)

/-- The internal signals of R29 have the widths the rule gives them: none loses a bit. -/
def Obligations.SignalsCarryTheirValues : Prop :=
  ∀ r : Request,
    (signalKv r).toNat = kv r.valIn.toNat ∧ (signalKd r).toNat = kd (lane r.winIn 0) ∧
    (signalN r).toNat = kd (lane r.winIn 0) + 1 ∧
    (signalPayload r).toNat = composite r.winIn (kd (lane r.winIn 0)) ∧
    lanes (signalUnit r) (encLen r.valIn.toNat) = enc r.valIn.toNat

/-! ## The clock cycle -/

/-- What an instruction changes and what it leaves. Every byte of BUF stays as it was (R41, R155). One slot with its response
enters the flight and the oldest slot leaves it for the output ports (R197 and R31, the spec's own decision D12; that the
flight is a list whose length is the latency, and that a slot holds the response beside the request, are the model's,
`notes/assumptions/2.md` and `3.md`). The response depends on the instruction alone: it is F of the request that carries it
(R26). The input ports stay as they were, which is the model's choice (`notes/assumptions/12.md`), and no free value is drawn
when the slot holds a response; `answered` and `draws` are the model's own fields (`notes/assumptions/16.md`). -/
def Obligations.InstructionFrame : Prop :=
  ∀ (i : Instr) (s t : State), exec i s = .next t →
    t.inp = s.inp ∧ t.buf = s.buf ∧ (∀ a, t.buf.read a = s.buf.read a) ∧ t.pipe.length = s.pipe.length ∧
    ∃ (r : Response) (due : Option InFlight), (WellFormed i → r = responseF (encode i)) ∧
      s.pipe ++ [some { req := s.inp.req, resp := r }] = due :: t.pipe ∧
      t.respValid = due.isSome ∧ t.answered = due.map InFlight.req ∧
      ∀ f, due = some f → t.resp = f.resp ∧ t.draws = s.draws

/-- With VLU_LATENCY = 0 (R197) an instruction's response stands on the output ports in its own cycle, with
`resp_valid` = 1, and nothing else changes (the spec's own decision D12). That an empty flight stands for that latency, that
the input ports stay and the field `answered` are the model's (`notes/assumptions/2.md`, `12.md` and `16.md`). -/
def Obligations.CombinationalCycleAnswersAtOnce : Prop :=
  ∀ s : State, s.pipe = [] → s.inp.rst = false → s.inp.reqValid = true →
    step s = .next { s with respValid := true, resp := responseF s.inp.req, answered := some s.inp.req }

/-- Every cycle has a next state: CORE has no traps and nothing ends an operation (R177, R179; the spec's own decision D17), and
it leaves BUF as it was (R41). That it leaves the input ports as they are is the model's choice
(`notes/assumptions/12.md`). -/
def Obligations.EveryCycleHasANextState : Prop :=
  ∀ s : State, ∃ t, step s = .next t ∧ t.inp = s.inp ∧ t.buf = s.buf

/-- A cycle without reset in which no slot falls due has `resp_valid` = 0: a response is presented only in the cycle that R196
and R197 give it (the spec's own decision D12). The model's own are the flight as a list (`notes/assumptions/2.md`), that
the input ports stay as they are (`12.md`) and the field `answered` (`16.md`); BUF stays by R41. -/
def Obligations.CycleWithoutResponseIsSilent : Prop :=
  ∀ s : State, s.inp.rst = false →
    ((∃ rest, s.pipe = none :: rest) ∨ (s.pipe = [] ∧ s.inp.reqValid = false)) →
    ∃ t, step s = .next t ∧ t.respValid = false ∧ t.answered = none ∧ t.inp = s.inp ∧ t.buf = s.buf

/-- VLU_LATENCY is fixed: no cycle changes it, with or without reset (R10, R198; the spec's own decision D12). That the length of
the flight stands for it is the model's choice (`notes/assumptions/2.md`). No run changes BUF (R41). -/
def Obligations.EveryRunKeepsTheLatency : Prop :=
  ∀ (ds : List Inputs) (s t : State), runDrives ds s = .next t → t.pipe.length = s.pipe.length ∧ t.buf = s.buf

/-- A request accepted in a cycle is answered VLU_LATENCY cycles later with F of that request, when no reset comes between
(R197, R26; the spec's own decisions D12 and D1). The length of the flight as VLU_LATENCY and the field `answered` are the
model's (`notes/assumptions/2.md` and `16.md`). -/
def Obligations.AcceptedRequestIsAnswered : Prop :=
  ∀ (s : State) (d : Inputs) (ds : List Inputs), d.rst = false → d.reqValid = true → ds.length = s.pipe.length →
    (∀ e ∈ ds, e.rst = false) →
    ∃ t, runDrives (d :: ds) s = .next t ∧ t.respValid = true ∧ t.resp = responseF d.req ∧ t.answered = some d.req

/-- Without reset, CORE is F delayed by VLU_LATENCY cycles: the responses come in request order, at most one a cycle, each
for one cycle, and each is F of its own request (R197, R196, R26; the spec's own decisions D12 and D1). The flight as a list and
the field `answered`, through which a response names its request, are the model's (`notes/assumptions/2.md`, `3.md` and
`16.md`). -/
def Obligations.CoreIsADelayedFunction : Prop :=
  ∀ (ds : List Inputs) (s : State), (∀ e ∈ ds, e.rst = false) →
    responsesOf ds s = (s.pipe ++ ds.map slotOf).take ds.length

/-- One reset cycle discards every request in flight and the request on the ports, and the first cycle after it accepts
requests again (R190, R191, R192; the spec's own decision D13). The flight as a list of VLU_LATENCY slots is the model's
(`notes/assumptions/2.md`). -/
def Obligations.ResetDiscardsRequestsInFlight : Prop :=
  ∀ (s : State) (d : Inputs) (ds : List Inputs), d.rst = true → (∀ e ∈ ds, e.rst = false) →
    (∃ t, step (s.drive d) = .next t ∧ t.respValid = false ∧ t.pipe = List.replicate s.pipe.length none) ∧
    responsesOf (d :: ds) s = none :: (List.replicate s.pipe.length none ++ ds.map slotOf).take ds.length

/-- A response does not depend on the state, the earlier or later requests, the latency or the machine that serves the
request (R26, R20, R184; the spec's own decisions D1 and D16). The length of the flight as VLU_LATENCY is the model's
(`notes/assumptions/2.md`). -/
def Obligations.ResponsesDoNotDependOnHistory : Prop :=
  ∀ (s s' : State) (d d' : Inputs) (ds ds' : List Inputs), d.rst = false → d.reqValid = true → d'.rst = false →
    d'.reqValid = true → d.req = d'.req → ds.length = s.pipe.length → ds'.length = s'.pipe.length →
    (∀ e ∈ ds, e.rst = false) → (∀ e ∈ ds', e.rst = false) →
    ∃ t t', runDrives (d :: ds) s = .next t ∧ runDrives (d' :: ds') s' = .next t' ∧
      t.respValid = true ∧ t'.respValid = true ∧ t.resp = t'.resp

/-- Every step keeps good states good: what stands on the output ports with `resp_valid` = 1 is F of its request, every
request in flight will get F of itself (R26; the spec's own decision D1), and BUF keeps its canonical form (the model's,
`notes/assumptions/8.md`). -/
def Obligations.EveryStepKeepsGoodStates : Prop :=
  ∀ s t : State, goodState s → step s = .next t → goodState t

/-- CORE right after reset is a good state with nothing in flight and `resp_valid` = 0, for every VLU_LATENCY (R32,
R192; the spec's own decision D13). The flight as a list, the empty BUF and `answered` are the model's
(`notes/assumptions/2.md`, `7.md` and `16.md`). -/
def Obligations.ResetStateIsGood : Prop :=
  ∀ latency : Nat, goodState (State.resetAt latency) ∧ (State.resetAt latency).respValid = false ∧
    (State.resetAt latency).pipe = List.replicate latency none

/-- No response of a good machine carries INVALID_DESCRIPTOR (R172; the spec's own decision D11). A good state includes the
model's form of BUF (`notes/assumptions/8.md`). -/
def Obligations.InvalidDescriptorIsNeverProduced : Prop :=
  ∀ (ds : List Inputs) (s t : State), goodState s → runDrives ds s = .next t → t.respValid = true →
    t.resp.status ≠ Status.code .invalidDescriptor

/-- With VLU_LATENCY = 0, feeding ENCODE's `enc_out` and `len_out` to DECODE returns the value and its length (R150, which
the spec marks as derived). That an empty flight stands for that latency is the model's (`notes/assumptions/2.md`). -/
def Obligations.EncodeThenDecodeReturnsTheValue : Prop :=
  ∀ (s : State) (v x : Value) (w : Bus) (a : Count), s.pipe = [] →
    ∃ t t', step (s.drive ⟨false, true, ⟨0b010#3, v, w, a⟩⟩) = .next t ∧
      step (t.drive ⟨false, true, ⟨0b011#3, x, t.resp.encOut, t.resp.lenOut⟩⟩) = .next t' ∧
      t'.respValid = true ∧
      t'.resp = { status := Status.code .ok, kOut := 0#4, lenOut := t.resp.lenOut, valOut := v, encOut := 0#72 } ∧
      t.resp.lenOut.toNat = encLen v.toNat

/-- Every instance of a system steps on its own (R184; the spec's own decision D16). That they step together, as a list, is the
model's (`notes/assumptions/15.md`). -/
def Obligations.InstancesStepOnTheirOwn : Prop :=
  ∀ ss : List State, ∃ ts, systemStep ss = .next ts ∧ ts.length = ss.length ∧
    ∀ (i : Nat) (s t : State), ss[i]? = some s → ts[i]? = some t → step s = .next t

/-! ## BUF and the requester -/

/-- MemRead reads an index below the length and stops by name at any other, and MemWrite stops by name past the index just
after the last (R40, R13; the stops and that MemWrite may add one byte are the model's, `notes/assumptions/9.md`); a written
byte is read back, and every other byte is as before. That the very next read sees the store is the model's choice too: R51
(D22) leaves it to the caller's platform (`notes/assumptions/19.md`). -/
def Obligations.WriteThenRead : Prop :=
  (∀ (m : Memory) (a : Nat), m.len ≤ a → m.read a = .error (.noSuchByte a)) ∧
  (∀ (m : Memory) (a : Nat), a < m.len → ∃ b, m.read a = .ok b) ∧
  (∀ (m : Memory) (a : Nat) (b : Byte), m.len < a → m.write a b = .error (.noSuchByte a)) ∧
  ∀ (m : Memory) (a : Nat) (b : Byte), m.wf → a ≤ m.len →
    ∃ m', m.write a b = .ok m' ∧ m'.read a = .ok b ∧ ∀ x, x ≠ a → m'.read x = m.read x

/-- Two buffers in the canonical form that have the same length and read alike are the same data (the model's form,
`notes/assumptions/8.md`). -/
def Obligations.CanonicalBuffersAreEqual : Prop :=
  ∀ m m' : Memory, m.wf → m'.wf → m.len = m'.len → (∀ a, m.read a = m'.read a) → m = m'

/-- The window fill of R42 with BUF stable (the spec's own decision D8): `avail` counts the bytes from the offset, at most
nine, the valid lanes hold them, and BUF and the other ports are unchanged. -/
def Obligations.WindowFillCopiesTheBuffer : Prop :=
  ∀ (s : State) (offset : Nat), ∃ t, s.fillWindow offset [] = .ok t ∧
    t.inp.req.avail.toNat = (if offset < s.buf.len then min 9 (s.buf.len - offset) else 0) ∧
    (∀ i < t.inp.req.avail.toNat, s.buf.read (offset + i) = .ok (lane t.inp.req.winIn i)) ∧
    t.buf = s.buf ∧ t.pipe = s.pipe ∧ t.inp.rst = s.inp.rst ∧ t.inp.reqValid = s.inp.reqValid ∧
    t.inp.req.op = s.inp.req.op ∧ t.inp.req.valIn = s.inp.req.valIn

/-- While another agent writes BUF during the fill, `avail` is that of a fill without a race (R42; the spec's own decision D8)
and every valid lane holds a value that its byte held during the fill (R50; D14). The other ports and the flight stay. That
BUF afterwards holds the last write to each of its indices, and as before where there is none, and that a write outside BUF
changes nothing, is the model's reading (`notes/assumptions/10.md`), and that later reads see it is its choice
(`notes/assumptions/19.md`). -/
def Obligations.RacingFillReadsHeldBytes : Prop :=
  ∀ (s : State) (offset : Nat) (race : List Host.Cell), ∃ t, s.fillWindow offset race = .ok t ∧
    t.inp.req.avail.toNat = (if offset < s.buf.len then min 9 (s.buf.len - offset) else 0) ∧
    (∀ i < t.inp.req.avail.toNat,
      s.buf.read (offset + i) = .ok (lane t.inp.req.winIn i) ∨ (offset + i, lane t.inp.req.winIn i) ∈ race) ∧
    t.pipe = s.pipe ∧ t.inp.rst = s.inp.rst ∧ t.inp.reqValid = s.inp.reqValid ∧ t.inp.req.op = s.inp.req.op ∧
    t.inp.req.valIn = s.inp.req.valIn ∧ t.buf.len = s.buf.len ∧
    (∀ a, s.buf.len ≤ a → t.buf.read a = s.buf.read a) ∧
    (s.buf.wf → ∀ a < s.buf.len,
      ((∀ c ∈ race, c.1 ≠ a) → t.buf.read a = s.buf.read a) ∧
      ∀ (before after : List Host.Cell) (b : Byte), race = before ++ (a, b) :: after → (∀ c ∈ after, c.1 ≠ a) →
        t.buf.read a = .ok b)

/-- DECODE_AT with BUF stable answers as R149 says, which the spec marks as derived: TRUNCATED_INPUT at or past the end and
where the unit is cut short, else the value of the unit at the offset and its length. -/
def Obligations.DecodeAtReadsTheUnit : Prop :=
  ∀ (s : State) (offset : Nat),
    (s.buf.len ≤ offset → readAt s offset = .ok (failResponse .truncatedInput)) ∧
    ∀ d : Byte, s.buf.read offset = .ok d →
      (s.buf.len - offset < kd d + 1 → readAt s offset = .ok (failResponse .truncatedInput)) ∧
      ∀ u : Bus, kd d + 1 ≤ s.buf.len - offset → (∀ i < kd d + 1, s.buf.read (offset + i) = .ok (lane u i)) →
        readAt s offset = .ok { okResponse with
          lenOut := BitVec.ofNat 4 (kd d + 1), valOut := BitVec.ofNat 64 (composite u (kd d)) }

/-- A record stream of encoded units is read back value by value by the requester's loop, which ends exactly at the end of
BUF (Program 1 of `95_test_vectors.md`; R79, R81, R152). How BUF is kept, and that every turn of the loop reads the one BUF, is the model's
(`notes/assumptions/8.md` and `20.md`). -/
def Obligations.ReadLoopRecoversEveryValue : Prop :=
  ∀ (s : State) (vs : List Value), s.buf = Memory.ofBytes (vs.flatMap fun v => enc v.toNat) →
    readLoop s 0 vs.length = some (vs, s.buf.len)

/-- What the requester does between cycles keeps good states good, BUF's canonical form among it (the model's,
`notes/assumptions/8.md`), and a fill leaves the length of BUF. Which actions on BUF the requester has is the model's
(`notes/assumptions/20.md`). -/
def Obligations.RequesterKeepsGoodStates : Prop :=
  ∀ (s t : State) (offset : Nat) (race : List Host.Cell) (bytes : List Byte) (d : Inputs), goodState s →
    goodState (s.drive d) ∧
    (s.fillWindow offset race = .ok t → goodState t ∧ t.buf.len = s.buf.len) ∧
    (s.decodeAt offset race = .ok t → goodState t ∧ t.buf.len = s.buf.len) ∧
    (s.hostWrite offset bytes = .ok t → goodState t)
end

