-- ==== Sys2Proof/Laws/State.lean ====
section
/-! SUPPORT. What each update of State leaves in each field, so that no later proof unfolds a record update. -/

namespace Sys2Proof.Machine

section present
variable (s : State) (f : InFlight)

@[simp] theorem State.present_inp : (s.present f).inp = s.inp := rfl
@[simp] theorem State.present_respValid : (s.present f).respValid = true := rfl
@[simp] theorem State.present_resp : (s.present f).resp = f.resp := rfl
@[simp] theorem State.present_pipe : (s.present f).pipe = s.pipe := rfl
@[simp] theorem State.present_answered : (s.present f).answered = some f.req := rfl
@[simp] theorem State.present_buf : (s.present f).buf = s.buf := rfl
@[simp] theorem State.present_draws : (s.present f).draws = s.draws := rfl

end present

section silent
variable (s : State)

@[simp] theorem State.silent_inp : s.silent.inp = s.inp := rfl
@[simp] theorem State.silent_respValid : s.silent.respValid = false := rfl
@[simp] theorem State.silent_resp : s.silent.resp = idleResponse s.draws := rfl
@[simp] theorem State.silent_pipe : s.silent.pipe = s.pipe := rfl
@[simp] theorem State.silent_answered : s.silent.answered = none := rfl
@[simp] theorem State.silent_buf : s.silent.buf = s.buf := rfl
@[simp] theorem State.silent_draws : s.silent.draws = s.draws + 1 := rfl

end silent

section emit
variable (s : State) (f : InFlight)

@[simp] theorem State.emit_some : s.emit (some f) = s.present f := rfl
@[simp] theorem State.emit_none : s.emit none = s.silent := rfl
@[simp] theorem State.emit_inp (e : Option InFlight) : (s.emit e).inp = s.inp := by cases e <;> rfl
@[simp] theorem State.emit_pipe (e : Option InFlight) : (s.emit e).pipe = s.pipe := by cases e <;> rfl
@[simp] theorem State.emit_buf (e : Option InFlight) : (s.emit e).buf = s.buf := by cases e <;> rfl
@[simp] theorem State.emit_respValid (e : Option InFlight) : (s.emit e).respValid = e.isSome := by cases e <;> rfl
@[simp] theorem State.emit_answered (e : Option InFlight) : (s.emit e).answered = e.map InFlight.req := by
  cases e <;> rfl

end emit

section drive
variable (s : State) (d : Inputs)

@[simp] theorem State.drive_inp : (s.drive d).inp = d := rfl
@[simp] theorem State.drive_respValid : (s.drive d).respValid = s.respValid := rfl
@[simp] theorem State.drive_resp : (s.drive d).resp = s.resp := rfl
@[simp] theorem State.drive_pipe : (s.drive d).pipe = s.pipe := rfl
@[simp] theorem State.drive_answered : (s.drive d).answered = s.answered := rfl
@[simp] theorem State.drive_buf : (s.drive d).buf = s.buf := rfl
@[simp] theorem State.drive_draws : (s.drive d).draws = s.draws := rfl

end drive

section resetAt
variable (latency : Nat)

@[simp] theorem State.resetAt_respValid : (State.resetAt latency).respValid = false := rfl
@[simp] theorem State.resetAt_pipe : (State.resetAt latency).pipe = List.replicate latency none := rfl
@[simp] theorem State.resetAt_answered : (State.resetAt latency).answered = none := rfl
@[simp] theorem State.resetAt_buf : (State.resetAt latency).buf = { len := 0, cells := [] } := rfl

end resetAt

end Sys2Proof.Machine
end

