-- ==== Sys2Proof/Laws/Codec.lean ====
section
/-! SUPPORT. The codec's functions: lanes of a packed bus, the bounds of KV and KD, and the shape of a unit. -/

namespace Sys2Proof.Machine

/-! ## Lanes -/

/-- Bit `j` of a packed bus is bit `j mod 8` of byte `j div 8`. -/
theorem packLanes_getLsbD (bytes : List Byte) (j : Nat) (hj : j < 72) :
    (packLanes bytes).getLsbD j = (bytes.getD (j / 8) 0#8).getLsbD (j % 8) := by
  induction bytes generalizing j with
  | nil => simp [packLanes]
  | cons b rest ih =>
    simp only [packLanes, BitVec.getLsbD_or, BitVec.getLsbD_setWidth, BitVec.getLsbD_shiftLeft]
    by_cases h8 : j < 8
    · have h0 : j / 8 = 0 := by omega
      have h1 : j % 8 = j := by omega
      simp [h8, hj, h0, h1]
    · have hb : b.getLsbD j = false := BitVec.getLsbD_of_ge b j (by omega)
      have hd : j / 8 = (j - 8) / 8 + 1 := by omega
      have hm : j % 8 = (j - 8) % 8 := by omega
      simp [h8, hj, hb, ih (j - 8) (by omega), hd, hm]

/-- A lane of a packed bus is the byte of that index, and `0x00` past the list (R25). -/
theorem lane_packLanes (bytes : List Byte) (i : Nat) (hi : i < 9) :
    lane (packLanes bytes) i = bytes.getD i 0#8 := by
  apply BitVec.eq_of_getLsbD_eq
  intro j hj
  have hd : (8 * i + j) / 8 = i := by omega
  have hm : (8 * i + j) % 8 = j := by omega
  simp only [lane, BitVec.getLsbD_extractLsb', hj, decide_true, Bool.true_and]
  rw [packLanes_getLsbD _ _ (by omega), hd, hm]

/-- Two buses with the same nine lanes are equal. -/
theorem bus_ext {a b : Bus} (h : ∀ i < 9, lane a i = lane b i) : a = b := by
  apply BitVec.eq_of_getLsbD_eq
  intro j hj
  have := congrArg (fun x : Byte => x.getLsbD (j % 8)) (h (j / 8) (by omega))
  have hm : j % 8 < 8 := Nat.mod_lt _ (by decide)
  simp only [lane, BitVec.getLsbD_extractLsb', hm, decide_true, Bool.true_and] at this
  rwa [Nat.div_add_mod j 8] at this

/-! ## Bounds -/

/-- KV is 8 at most, and the least count whose budget holds the value (R100). -/
theorem kv_cases (v : Nat) :
    (kv v < 8 ∧ v < 2 ^ (7 + 7 * kv v) ∧ ∀ j < kv v, 2 ^ (7 + 7 * j) ≤ v) ∨
    (kv v = 8 ∧ ∀ j < 8, 2 ^ (7 + 7 * j) ≤ v) := by
  unfold kv
  split
  · rename_i k hk
    left
    obtain ⟨hp, as, bs, hl, has⟩ := List.find?_eq_some_iff_append.1 hk
    have hk8 : k < 8 := by simpa [Config.kMax] using List.mem_of_find?_eq_some hk
    have hb : ∀ j, j < 8 → budget j = 7 + 7 * j := fun j hj => by
      simp [budget, Config.kMax, show j ≠ 8 by omega]
    refine ⟨hk8, ?_, fun j hj => ?_⟩
    · simpa [hb k hk8] using hp
    · have hjl : j ∈ as := by
        have hlen : as.length = k := by
          have h1 : (List.range Config.kMax)[as.length]? = some k := by rw [hl]; simp
          obtain ⟨_, h2⟩ := List.getElem?_eq_some_iff.1 h1
          simpa using h2
        have h1 : (List.range Config.kMax)[j]? = some j := List.getElem?_range (by simp only [Config.kMax]; omega)
        rw [hl, List.getElem?_append_left (by omega)] at h1
        exact List.mem_of_getElem? h1
      have := has j hjl
      simp only [hb j (by omega), Bool.not_eq_true', decide_eq_false_iff_not, not_lt] at this
      exact this
  · rename_i hn
    right
    refine ⟨rfl, fun j hj => ?_⟩
    have := List.find?_eq_none.1 hn j (by simpa [Config.kMax] using hj)
    simpa [budget, Config.kMax, show j ≠ 8 by omega] using this

/-- KV never exceeds 8. -/
theorem kv_le (v : Nat) : kv v ≤ 8 := by
  rcases kv_cases v with ⟨h, -⟩ | ⟨h, -⟩ <;> omega

/-- KD never exceeds 8. -/
theorem kd_le (b : Byte) : kd b ≤ 8 := by revert b; decide

/-! ## Units -/

/-- A unit of continuation count `k` has `k + 1` bytes (R73). -/
@[simp] theorem unitOf_length (k v : Nat) : (unitOf k v).length = k + 1 := by simp [unitOf]

/-- A canonical unit has LEN bytes (R126). -/
@[simp] theorem enc_length (v : Nat) : (enc v).length = encLen v := by simp [enc, encLen]

@[simp] theorem unitOf_descriptor (k v : Nat) (d : Byte) : (unitOf k v).getD 0 d = descriptor k v := rfl

/-- The payload bytes of a unit. -/
theorem unitOf_payload {k v j : Nat} (hj : j < k) (d : Byte) : (unitOf k v).getD (j + 1) d = payloadByte k v j := by
  simp [unitOf, List.getD, hj]

end Sys2Proof.Machine
end

