-- ==== Sys2Proof/Laws/Memory.lean ====
section
/-! SUPPORT. BUF: every memory operation keeps the canonical form, and what each of them makes a read give. -/

namespace Sys2Proof.Machine

/-! ## Cells -/

/-- No listed address is below a bound that all of the list is above. -/
theorem cellAt_of_forall_lt {addr : Nat} {l : List Host.Cell} (h : ∀ c ∈ l, addr < c.1) :
    cellAt addr l = unlistedByte := by
  induction l with
  | nil => rfl
  | cons c rest ih =>
    have hc := h c (by simp)
    simp only [cellAt, if_neg (show ¬ c.1 = addr by omega)]
    exact ih fun d hd => h d (by simp [hd])

/-- A listed byte is read back. -/
theorem cellAt_of_mem {l : List Host.Cell} (hl : l.Pairwise fun c d => c.1 < d.1) {c : Host.Cell} (hc : c ∈ l) :
    cellAt c.1 l = c.2 := by
  induction l with
  | nil => simp at hc
  | cons d rest ih =>
    rw [List.pairwise_cons] at hl
    rcases List.mem_cons.1 hc with rfl | hc'
    · simp [cellAt]
    · have := hl.1 c hc'
      simp only [cellAt, if_neg (show ¬ d.1 = c.1 by omega)]
      exact ih hl.2 hc'

/-- Where a list does not read as unlisted, it lists the address. -/
theorem mem_of_cellAt_ne {addr : Nat} {l : List Host.Cell} (h : cellAt addr l ≠ unlistedByte) :
    (addr, cellAt addr l) ∈ l := by
  induction l with
  | nil => simp [cellAt] at h
  | cons c rest ih =>
    by_cases hc : c.1 = addr
    · subst hc; simp [cellAt]
    · simp only [cellAt, if_neg hc] at h ⊢
      exact List.mem_cons_of_mem _ (ih h)

/-- The entries of a replaced list: old ones, or the new byte. -/
theorem mem_setCell {addr : Nat} {b : Byte} {l : List Host.Cell} {c : Host.Cell} (h : c ∈ setCell addr b l) :
    c ∈ l ∨ (c = (addr, b) ∧ b ≠ unlistedByte) := by
  induction l with
  | nil =>
    by_cases hb : b = unlistedByte <;> simp [setCell, hb] at h ⊢
    exact h
  | cons d rest ih =>
    simp only [setCell] at h
    split_ifs at h <;> simp only [List.mem_cons] at h ⊢ <;> tauto

/-- Replacing a byte keeps addresses strictly rising. -/
theorem setCell_sorted {addr : Nat} {b : Byte} {l : List Host.Cell} (h : l.Pairwise fun c d => c.1 < d.1) :
    (setCell addr b l).Pairwise fun c d => c.1 < d.1 := by
  induction l with
  | nil => simp only [setCell]; split_ifs <;> simp
  | cons d rest ih =>
    rw [List.pairwise_cons] at h
    simp only [setCell]
    split_ifs with h1 h2 h3 h4
    · exact List.pairwise_cons.2 h
    · refine List.pairwise_cons.2 ⟨?_, List.pairwise_cons.2 h⟩
      rintro c hc
      rcases List.mem_cons.1 hc with rfl | hc
      · exact h1
      · exact lt_trans h1 (h.1 c hc)
    · exact h.2
    · exact List.pairwise_cons.2 ⟨fun c hc => h3 ▸ h.1 c hc, h.2⟩
    · refine List.pairwise_cons.2 ⟨fun c hc => ?_, ih h.2⟩
      rcases mem_setCell hc with hc | ⟨rfl, -⟩
      · exact h.1 c hc
      · show d.1 < addr; omega

/-- Reading the replaced byte. -/
theorem cellAt_setCell_self {addr : Nat} {b : Byte} {l : List Host.Cell} (h : l.Pairwise fun c d => c.1 < d.1) :
    cellAt addr (setCell addr b l) = b := by
  induction l with
  | nil => simp only [setCell]; split_ifs with hb <;> simp [cellAt, hb]
  | cons d rest ih =>
    rw [List.pairwise_cons] at h
    simp only [setCell]
    split_ifs with h1 h2 h3 h4
    · subst h2
      refine cellAt_of_forall_lt fun c hc => ?_
      rcases List.mem_cons.1 hc with rfl | hc
      · exact h1
      · exact lt_trans h1 (h.1 c hc)
    · simp [cellAt]
    · subst h4 h3; exact cellAt_of_forall_lt fun c hc => h.1 c hc
    · simp [cellAt]
    · simp only [cellAt, if_neg (show ¬ d.1 = addr by omega)]
      exact ih h.2

/-- Reading any other byte. -/
theorem cellAt_setCell_other {addr x : Nat} {b : Byte} {l : List Host.Cell} (hx : x ≠ addr) :
    cellAt x (setCell addr b l) = cellAt x l := by
  induction l with
  | nil => simp only [setCell]; split_ifs <;> simp [cellAt, hx.symm]
  | cons d rest ih =>
    simp only [setCell]
    split_ifs with h1 h2 h3 h4
    · rfl
    · simp [cellAt, hx.symm]
    · simp [cellAt, ← h3, hx.symm]
    · simp [cellAt, ← h3, hx.symm]
    · simp only [cellAt, ih]

/-! ## The canonical form -/

/-- Replacing a byte inside BUF keeps the canonical form. -/
theorem setCell_wf {m : Memory} {addr : Nat} (h : m.wf) {n : Nat} (hn : m.len ≤ n) (ha : addr < n) (b : Byte) :
    Memory.wf { len := n, cells := setCell addr b m.cells } := by
  refine ⟨setCell_sorted h.1, fun c hc => ?_⟩
  rcases mem_setCell hc with hc | ⟨rfl, hb⟩
  · exact ⟨lt_of_lt_of_le (h.2 c hc).1 hn, (h.2 c hc).2⟩
  · exact ⟨ha, hb⟩

/-- Everything MemWrite can answer: the index is inside BUF or just past it, and one byte is replaced. -/
theorem Memory.write_ok {m m' : Memory} {addr : Nat} {b : Byte} (h : m.write addr b = .ok m') :
    addr ≤ m.len ∧ m' = { len := max m.len (addr + 1), cells := setCell addr b m.cells } := by
  unfold Memory.write at h
  split_ifs at h with ha
  exact ⟨ha, (Except.ok.inj h).symm⟩

/-- MemWrite keeps the canonical form. -/
theorem Memory.write_wf {m m' : Memory} {addr : Nat} {b : Byte} (hm : m.wf) (h : m.write addr b = .ok m') : m'.wf := by
  obtain ⟨-, rfl⟩ := Memory.write_ok h
  exact setCell_wf hm (le_max_left _ _) (by omega) b

/-- MemWrite of a byte list keeps the canonical form. -/
theorem Memory.writeBytes_wf {bytes : List Byte} {m m' : Memory} {addr : Nat} (hm : m.wf)
    (h : m.writeBytes addr bytes = .ok m') : m'.wf := by
  induction bytes generalizing m addr with
  | nil => cases h; exact hm
  | cons b rest ih =>
    simp only [Memory.writeBytes] at h
    cases hw : m.write addr b with
    | ok m1 => rw [hw] at h; exact ih (Memory.write_wf hm hw) h
    | error e => rw [hw] at h; cases h

/-- Another agent's writes keep the canonical form and the length. -/
theorem Memory.afterRace_wf {race : List Host.Cell} {m : Memory} (hm : m.wf) : (m.afterRace race).wf := by
  induction race generalizing m with
  | nil => exact hm
  | cons c rest ih =>
    simp only [Memory.afterRace]
    split_ifs with hc
    · exact ih (setCell_wf hm le_rfl hc c.2)
    · exact ih hm

@[simp] theorem Memory.afterRace_nil (m : Memory) : m.afterRace [] = m := rfl

@[simp] theorem Memory.afterRace_len {race : List Host.Cell} {m : Memory} : (m.afterRace race).len = m.len := by
  induction race generalizing m with
  | nil => rfl
  | cons c rest ih =>
    simp only [Memory.afterRace]
    split_ifs <;> exact ih

/-- Everything another agent's writes do to one byte of BUF: the last of them to its index stands, and without any the byte is
as before. -/
theorem Memory.afterRace_cellAt {race : List Host.Cell} {m : Memory} (hm : m.wf) {a : Nat} (ha : a < m.len) :
    cellAt a (m.afterRace race).cells = race.foldl (fun b c => if c.1 = a then c.2 else b) (cellAt a m.cells) := by
  induction race generalizing m with
  | nil => rfl
  | cons c rest ih =>
    simp only [Memory.afterRace, List.foldl_cons]
    by_cases hc : c.1 = a
    · subst hc
      rw [if_pos ha, ih (setCell_wf hm le_rfl ha c.2) ha, if_pos rfl, cellAt_setCell_self hm.1]
    · rw [if_neg hc]
      split_ifs with hl
      · rw [ih (setCell_wf hm le_rfl hl c.2) ha, cellAt_setCell_other (Ne.symm hc)]
      · exact ih hm ha

/-- BUF made of given bytes is in the canonical form. -/
theorem Memory.ofBytes_wf (bytes : List Byte) : (Memory.ofBytes bytes).wf := by
  constructor
  · refine List.Pairwise.filter _ (List.pairwise_map.2 ?_)
    rw [List.pairwise_iff_getElem]
    intro i j hi hj hij
    simpa using hij
  · intro c hc
    obtain ⟨hc, hne⟩ := List.mem_filter.1 hc
    obtain ⟨p, hp, rfl⟩ := List.mem_map.1 hc
    refine ⟨?_, by simpa using hne⟩
    obtain ⟨x, i⟩ := p
    have := List.mem_zipIdx hp
    simp at this
    simpa [Memory.ofBytes] using this.1

/-- BUF at reset is in the canonical form. -/
theorem State.resetAt_wf (latency : Nat) : (State.resetAt latency).buf.wf := by simp [State.resetAt, Memory.wf]

/-! ## Reads -/

/-- Everything MemRead can answer. -/
theorem Memory.read_ok {m : Memory} {addr : Nat} {b : Byte} :
    m.read addr = .ok b ↔ addr < m.len ∧ cellAt addr m.cells = b := by
  unfold Memory.read
  split_ifs with h <;> simp [h]

/-- The bytes that make BUF are read back. -/
theorem Memory.ofBytes_cellAt (bytes : List Byte) (i : Nat) :
    cellAt i (Memory.ofBytes bytes).cells = bytes.getD i unlistedByte := by
  have hwf := (Memory.ofBytes_wf bytes).1
  by_cases h : cellAt i (Memory.ofBytes bytes).cells = unlistedByte
  · rw [h]
    by_contra hne
    have hi : i < bytes.length := by
      by_contra hi
      exact hne (by simp [List.getD, List.getElem?_eq_none (not_lt.1 hi)])
    have hmem : ((i, bytes[i]) : Host.Cell) ∈ (Memory.ofBytes bytes).cells := by
      refine List.mem_filter.2 ⟨List.mem_map.2 ⟨(bytes[i], i), ?_, rfl⟩, ?_⟩
      · exact List.mem_zipIdx_iff_getElem?.2 (by simp [hi])
      · simp [List.getD, hi] at hne
        simpa using fun h => hne h.symm
    have := cellAt_of_mem hwf hmem
    rw [h] at this
    simp only at this
    exact hne (by simp [List.getD, hi, ← this])
  · have hmem := mem_of_cellAt_ne h
    obtain ⟨hm, -⟩ := List.mem_filter.1 hmem
    obtain ⟨p, hp, hpe⟩ := List.mem_map.1 hm
    have := List.mem_zipIdx_iff_getElem?.1 hp
    simp only [Prod.mk.injEq] at hpe
    obtain ⟨h1, h2⟩ := hpe
    rw [← h2, List.getD, ← h1, this]; rfl

end Sys2Proof.Machine
end

