-- ==== Sys2Proof/Laws/Ops.lean ====
section
/-! SUPPORT. What each shared operation can do, said once: the cycles of CORE, the decoder, and the step. -/

namespace Sys2Proof.Machine

/-! ## Advancing the flight -/

section advance
variable (s : State) (e : Option InFlight)

/-- The slot that falls due when `e` enters the flight: the oldest one, or `e` itself when there is no flight. -/
theorem State.advance_eq :
    ∃ f rest, s.pipe ++ [e] = f :: rest ∧ s.advance e = { s.emit f with pipe := rest } := by
  unfold State.advance
  cases h : s.pipe with
  | nil => exact ⟨e, [], rfl, by cases e <;> simp [State.present, State.silent, h]⟩
  | cons f rest => exact ⟨f, rest ++ [e], rfl, rfl⟩

@[simp] theorem State.advance_inp : (s.advance e).inp = s.inp := by
  unfold State.advance; split <;> simp

@[simp] theorem State.advance_buf : (s.advance e).buf = s.buf := by
  unfold State.advance; split <;> simp

@[simp] theorem State.advance_pipe : (s.advance e).pipe = (s.pipe ++ [e]).tail := by
  unfold State.advance; split <;> simp [*]

@[simp] theorem State.advance_respValid :
    (s.advance e).respValid = ((s.pipe ++ [e]).head (by simp)).isSome := by
  unfold State.advance; split <;> simp [*]

@[simp] theorem State.advance_answered :
    (s.advance e).answered = ((s.pipe ++ [e]).head (by simp)).map InFlight.req := by
  unfold State.advance; split <;> simp [*]

/-- The data ports carry the response of the slot that falls due. -/
theorem State.advance_resp {f : InFlight} (h : (s.pipe ++ [e]).head (by simp) = some f) :
    (s.advance e).resp = f.resp := by
  unfold State.advance
  split <;> rename_i hp <;> simp only [hp, List.nil_append, List.cons_append, List.head_cons] at h <;> subst h <;> rfl

theorem State.advance_length : (s.advance e).pipe.length = s.pipe.length := by simp

end advance

/-- With VLU_LATENCY = 0 a request is answered in its own cycle (R197). -/
theorem State.accept_combinational {s : State} (h : s.pipe = []) (r : Response) :
    s.accept r = s.present { req := s.inp.req, resp := r } := by
  simp [State.accept, State.advance, h]

section resetCycle
variable (s : State)

@[simp] theorem State.resetCycle_inp : s.resetCycle.inp = s.inp := rfl
@[simp] theorem State.resetCycle_buf : s.resetCycle.buf = s.buf := rfl
@[simp] theorem State.resetCycle_respValid : s.resetCycle.respValid = false := rfl
@[simp] theorem State.resetCycle_answered : s.resetCycle.answered = none := rfl
@[simp] theorem State.resetCycle_pipe : s.resetCycle.pipe = List.replicate s.pipe.length none := rfl

end resetCycle

/-! ## Decoding -/

/-- Everything the decoder can answer: an instruction for the codes 0 to 4, a reserved code else. -/
theorem decode_cases (r : Request) :
    (r.op = 0b000#3 ∧ decode r = .ok (.classifyValue r.valIn)) ∨
    (r.op = 0b001#3 ∧ decode r = .ok (.classifyDesc (lane r.winIn 0))) ∨
    (r.op = 0b010#3 ∧ decode r = .ok (.encode r.valIn)) ∨
    (r.op = 0b011#3 ∧ decode r = .ok (.decode r.winIn r.avail.toNat)) ∨
    (r.op = 0b100#3 ∧ decode r = .ok (.encodedLength r.valIn)) ∨
    ((r.op = 0b101#3 ∨ r.op = 0b110#3 ∨ r.op = 0b111#3) ∧ decode r = .error (.reservedOp r.op)) := by
  obtain ⟨op, v, w, a⟩ := r
  have h : ∀ op : OpCode, op = 0b000#3 ∨ op = 0b001#3 ∨ op = 0b010#3 ∨ op = 0b011#3 ∨ op = 0b100#3 ∨
      op = 0b101#3 ∨ op = 0b110#3 ∨ op = 0b111#3 := by decide
  obtain rfl | rfl | rfl | rfl | rfl | rfl | rfl | rfl := h op <;> simp [decode]

/-! ## Meanings and the step -/

/-- The response that an instruction's request gets. -/
def responseOf : Instr → Response
  | .classifyValue v => classifyValueResponse v
  | .classifyDesc b => classifyDescResponse b
  | .encode v => encodeResponse v
  | .decode u a => decodeResponse u a
  | .encodedLength v => encodedLengthResponse v

/-- Every meaning accepts the request with the instruction's response, and does nothing else. -/
theorem exec_eq (i : Instr) (s : State) : exec i s = .next (s.accept (responseOf i)) := by cases i <;> rfl

/-- F of a request that selects an instruction is that instruction's response. -/
theorem responseF_of_ok {r : Request} {i : Instr} (h : decode r = .ok i) : responseF r = responseOf i := by
  unfold responseF; rw [h]; cases i <;> rfl

/-- F of a request with a reserved code is the ILLEGAL_OP response. -/
theorem responseF_of_error {r : Request} {e : DecodeError} (h : decode r = .error e) :
    responseF r = failResponse .illegalOp := by
  cases e; unfold responseF; rw [h]

/-- Everything a cycle with `rst` = 0 does: its slot enters the flight. -/
theorem step_of_running {s : State} (h : s.inp.rst = false) : step s = .next (s.advance (slotOf s.inp)) := by
  unfold step slotOf
  simp only [h, Bool.false_eq_true, if_false]
  split
  · cases hd : decode s.inp.req with
    | ok i => simp [exec_eq, responseF_of_ok hd, State.accept]
    | error e => cases e; simp [responseF_of_error hd, State.illegalOpCycle, State.accept]
  · rfl

/-- Everything a cycle with `rst` = 1 does. -/
theorem step_of_reset {s : State} (h : s.inp.rst = true) : step s = .next s.resetCycle := by simp [step, h]

/-- The two things a step can do. -/
theorem step_cases (s : State) :
    (s.inp.rst = true ∧ step s = .next s.resetCycle) ∨
    (s.inp.rst = false ∧ step s = .next (s.advance (slotOf s.inp))) := by
  cases h : s.inp.rst
  · exact .inr ⟨rfl, step_of_running h⟩
  · exact .inl ⟨rfl, step_of_reset h⟩

end Sys2Proof.Machine
end

