-- ==== Sys2Proof/Laws/PerInstr.lean ====
section
/-! SUPPORT. The family of per-instruction laws: a well-formed instruction is read back from the request that carries it. -/

namespace Sys2Proof.Laws.ReadBack

open Sys2Proof Sys2Proof.Machine

/-- The decoder reads `i` from the request that carries it. -/
def Statement (i : Instr) : Prop := WellFormed i → decode (encode i) = .ok i

theorem classifyValue (v : Value) : Statement (.classifyValue v) := fun _ => rfl

theorem classifyDesc (b : Byte) : Statement (.classifyDesc b) := fun _ => by
  have h : lane (packLanes [b]) 0 = b := lane_packLanes [b] 0 (by decide)
  simp [decode, encode, h]

theorem encode (v : Value) : Statement (.encode v) := fun _ => rfl

theorem decode (u : Bus) (a : Nat) : Statement (.decode u a) := fun h => by
  have ha : a < 16 := by simpa [WellFormed, Instr.wf] using h
  simp [Sys2Proof.decode, Sys2Proof.encode, Nat.mod_eq_of_lt ha]

theorem encodedLength (v : Value) : Statement (.encodedLength v) := fun _ => rfl

end Sys2Proof.Laws.ReadBack
end

