-- ==== Sys2Proof/Laws/Requester.lean ====
section
/-! SUPPORT. What the window fill and DEC can do, said once. -/

namespace Sys2Proof.Machine

/-! ## The window fill -/

/-- A fill makes nine lanes valid at most. -/
theorem availAt_le (len offset : Nat) : availAt len offset ≤ 9 := by
  unfold availAt Config.unitMaxBytes; split <;> omega

/-- A valid lane stands for an index of the buffer. -/
theorem add_lt_of_lt_availAt {len offset i : Nat} (h : i < availAt len offset) : offset + i < len := by
  unfold availAt Config.unitMaxBytes at h; split at h <;> omega

/-- The count of valid lanes fits the `avail` port. -/
theorem availAt_toNat (len offset : Nat) : (BitVec.ofNat 4 (availAt len offset)).toNat = availAt len offset := by
  have := availAt_le len offset
  simp only [BitVec.toNat_ofNat]
  omega

/-- A racing read returns one of the values its byte held. -/
theorem racePick_mem {held : List Byte} (choice : Nat) (h : held ≠ []) : racePick held choice ∈ held := by
  have : choice % held.length < held.length := Nat.mod_lt _ (List.length_pos_iff.2 h)
  rw [racePick, List.getD, List.getElem?_eq_getElem this]
  simp

/-- Everything a fill of lanes can answer: it succeeds, and every valid lane is one of the values its byte held. -/
theorem fillLanes_spec (m : Memory) (race : List Host.Cell) (n offset : Nat) (k i : Nat) :
    ∃ bytes, fillLanes m race n offset (availAt m.len offset) i k = .ok bytes ∧ bytes.length = k ∧
      ∀ j < k, i + j < availAt m.len offset →
        bytes.getD j 0#8 ∈ heldDuring (cellAt (offset + (i + j)) m.cells) race (offset + (i + j)) := by
  induction k generalizing i with
  | zero => exact ⟨[], rfl, rfl, by simp⟩
  | succ k ih =>
    obtain ⟨bytes, h1, h2, h3⟩ := ih (i + 1)
    have hl : ∃ b, fillLane m race n offset (availAt m.len offset) i = .ok b ∧
        (i < availAt m.len offset → b ∈ heldDuring (cellAt (offset + i) m.cells) race (offset + i)) := by
      unfold fillLane
      split_ifs with hi
      · rw [Memory.read_ok.2 ⟨add_lt_of_lt_availAt hi, rfl⟩]
        exact ⟨_, rfl, fun _ => racePick_mem _ (by simp [heldDuring])⟩
      · exact ⟨_, rfl, fun h => absurd h hi⟩
    obtain ⟨b, hb, hb'⟩ := hl
    refine ⟨b :: bytes, by simp [fillLanes, hb, h1], by simp [h2], fun j hj hij => ?_⟩
    cases j with
    | zero => exact hb' hij
    | succ j =>
      have := h3 j (by omega) (by omega)
      rwa [show i + 1 + j = i + (j + 1) by omega] at this

/-- Everything a window fill can do: it always succeeds, it writes `win_in`, `avail`, BUF (by the race) and the draw
counter, and every valid lane is one of the values its byte held. -/
theorem State.fillWindow_spec (s : State) (offset : Nat) (race : List Host.Cell) :
    ∃ bytes, bytes.length = 9 ∧
      s.fillWindow offset race = .ok { s with
        inp := { s.inp with
          req := { s.inp.req with winIn := packLanes bytes, avail := BitVec.ofNat 4 (availAt s.buf.len offset) } }
        buf := s.buf.afterRace race
        draws := s.draws + 1 } ∧
      ∀ i < availAt s.buf.len offset,
        bytes.getD i 0#8 ∈ heldDuring (cellAt (offset + i) s.buf.cells) race (offset + i) := by
  obtain ⟨bytes, h1, h2, h3⟩ := fillLanes_spec s.buf race s.draws offset 9 0
  refine ⟨bytes, h2, by simp [State.fillWindow, Config.unitMaxBytes, h1], fun i hi => ?_⟩
  have := h3 i (by have := availAt_le s.buf.len offset; omega) (by simpa using hi)
  simpa using this

/-! ## DEC -/

/-- Everything DEC can answer. -/
theorem dec_cases (u : Bus) (a : Nat) :
    (a < kd (lane u 0) + 1 ∧ dec u a = .truncated) ∨
    (kd (lane u 0) + 1 ≤ a ∧ dec u a = .ok (composite u (kd (lane u 0))) (kd (lane u 0) + 1)) := by
  unfold dec
  split_ifs with h1 h2
  · exact .inl ⟨by omega, rfl⟩
  · exact .inl ⟨h2, rfl⟩
  · exact .inr ⟨by omega, rfl⟩

end Sys2Proof.Machine
end

