-- ==== Sys2Proof/Tests/Slice0.lean ====
section
/-! SUPPORT. Small tests of the model and, for each statement that has hypotheses, a witness that meets them. Expected
results are those of `spec/95_test_vectors.md` and of the rules' corner cases; words are written out from R60. -/

namespace Sys2Proof.Tests

open Sys2Proof Sys2Proof.Machine

/-! ## Helpers -/

/-- The request ports, written out. -/
def ports (op : OpCode) (v : Value) (w : List Byte) (a : Count) : Request :=
  { op := op, valIn := v, winIn := packLanes w, avail := a }

/-- A cycle that presents a request. -/
def presents (r : Request) : Inputs := { rst := false, reqValid := true, req := r }

/-- A cycle that presents nothing. -/
def idle : Inputs := { rst := false, reqValid := false, req := ports 0#3 0#64 [] 0#4 }

/-- A cycle of reset, with a request on the ports. -/
def resets : Inputs := { rst := true, reqValid := true, req := ports 0b010#3 5#64 [] 0#4 }

/-- The combinational machine with a request on its ports. -/
def at0 (r : Request) : State := State.reset.drive (presents r)

/-- BUF of Program 3: `AA B1 04 0A`. -/
def buf3 : Memory := Memory.ofBytes [0xAA#8, 0xB1#8, 0x04#8, 0x0A#8]

/-- The machine after reset with a given BUF. -/
def withBuf (m : Memory) : State := { State.reset with buf := m }

/-- An outcome is a next state that meets a check. -/
def nextMeets (o : Host.Outcome State Fault Refusal) (p : State → Bool) : Bool :=
  match o with
  | .next t => p t
  | .fault _ => false
  | .refused _ => false

/-- An outcome presents this response, with `resp_valid` = 1. -/
def answers (o : Host.Outcome State Fault Refusal) (r : Response) : Bool :=
  nextMeets o fun t => t.respValid && decide (t.resp = r)

/-! ## Well-formedness and decoding -/

theorem test_wf_refuses_wide_count : ¬ WellFormed (.decode 0#72 16) := by decide
theorem test_wf_admits_widest_count : WellFormed (.decode 0#72 15) := by decide

theorem test_word_000 : decode (ports 0b000#3 300#64 [0x07#8] 1#4) = .ok (.classifyValue 300#64) := rfl
theorem test_word_001 : decode (ports 0b001#3 300#64 [0x07#8] 1#4) = .ok (.classifyDesc 0x07#8) := rfl
theorem test_word_010 : decode (ports 0b010#3 300#64 [0x07#8] 1#4) = .ok (.encode 300#64) := rfl
theorem test_word_011 : decode (ports 0b011#3 300#64 [0xB1#8, 0x04#8] 2#4) = .ok (.decode 0x04B1#72 2) := rfl
theorem test_word_100 : decode (ports 0b100#3 300#64 [0x07#8] 1#4) = .ok (.encodedLength 300#64) := rfl
theorem test_word_101_reserved : decode (ports 0b101#3 0#64 [] 0#4) = .error (.reservedOp 0b101#3) := rfl
theorem test_word_110_reserved : decode (ports 0b110#3 0#64 [] 0#4) = .error (.reservedOp 0b110#3) := rfl
theorem test_word_111_reserved : decode (ports 0b111#3 0#64 [] 0#4) = .error (.reservedOp 0b111#3) := rfl
theorem test_table_words : (List.range 8).map (fun w => (decodeTableWord 8 w).isSome) =
    [true, true, true, true, true, false, false, false] := by decide

/-- `enc_out` of `B1 04` read as one number, Program 1. -/
theorem test_lane_order : packLanes [0xB1#8, 0x04#8] = 0x0000000000000004B1#72 := by decide

/-! ## One step of each operation -/

theorem test_classify_value_300 :
    answers (step (at0 (ports 0b000#3 300#64 [] 0#4))) ⟨0b00#2, 1#4, 0#4, 0#64, 0#72⟩ = true := by decide
theorem test_classify_value_2_56 :
    answers (step (at0 (ports 0b000#3 0x100000000000000#64 [] 0#4))) ⟨0b00#2, 8#4, 0#4, 0#64, 0#72⟩ = true := by decide
/-- V2's corner case: `avail` and lanes 1..8 do not count. -/
theorem test_classify_desc_07 : answers (step (at0 (ports 0b001#3 0#64 (0x07#8 :: List.replicate 8 0xFF#8) 0#4)))
    ⟨0b00#2, 3#4, 0#4, 0#64, 0#72⟩ = true := by decide
theorem test_classify_desc_BF :
    answers (step (at0 (ports 0b001#3 0#64 [0xBF#8] 0#4))) ⟨0b00#2, 6#4, 0#4, 0#64, 0#72⟩ = true := by decide
/-- E23. -/
theorem test_encode_DEADBEEF : answers (step (at0 (ports 0b010#3 0xDEADBEEF#64 [] 0#4)))
    ⟨0b00#2, 0#4, 5#4, 0#64, 0x1BD5B7DDEF#72⟩ = true := by decide
/-- E24. -/
theorem test_encode_maximal : answers (step (at0 (ports 0b010#3 0x0123456789ABCDEF#64 [] 0#4)))
    ⟨0b00#2, 0#4, 9#4, 0#64, 0x0123456789ABCDEFFF#72⟩ = true := by decide
/-- V4: trailing bytes of a next record. -/
theorem test_decode_300 : answers (step (at0 (ports 0b011#3 0#64 [0xB1#8, 0x04#8, 0x0A#8, 0x99#8] 4#4)))
    ⟨0b00#2, 0#4, 2#4, 300#64, 0#72⟩ = true := by decide
/-- V4: `k = 6` with the descriptor's data bit set. -/
theorem test_decode_k6 : answers (step (at0 (ports 0b011#3 0#64
    [0xBF#8, 0x01#8, 0x02#8, 0x03#8, 0x04#8, 0x05#8, 0x06#8] 7#4)))
    ⟨0b00#2, 0#4, 7#4, 0xC0A08060403#64, 0#72⟩ = true := by decide
/-- V4: one byte short of a maximal unit. -/
theorem test_decode_truncated : answers (step (at0 (ports 0b011#3 0#64 [0xFF#8] 8#4)))
    ⟨0b01#2, 0#4, 0#4, 0#64, 0#72⟩ = true := by decide
theorem test_encoded_length_max : answers (step (at0 (ports 0b100#3 0xFFFFFFFFFFFFFFFF#64 [] 0#4)))
    ⟨0b00#2, 0#4, 9#4, 0#64, 0#72⟩ = true := by decide
theorem test_encoded_length_127 :
    answers (step (at0 (ports 0b100#3 127#64 [] 0#4))) ⟨0b00#2, 0#4, 1#4, 0#64, 0#72⟩ = true := by decide
/-- V5. -/
theorem test_reserved_op : answers (step (at0 (ports 0b110#3 300#64 [0xFF#8] 9#4)))
    ⟨0b11#2, 0#4, 0#4, 0#64, 0#72⟩ = true := by decide

/-! ## The clock cycle -/

/-- With VLU_LATENCY = 2 the response is not there in the request's cycle. -/
theorem test_latency_waits :
    nextMeets (step ((State.resetAt 2).drive (presents (ports 0b010#3 5#64 [] 0#4))))
      (fun t => !t.respValid && decide (t.pipe.length = 2)) = true := by decide
theorem test_reset_cycle_accepts_nothing :
    nextMeets (step ((State.resetAt 1).drive resets)) (fun t => !t.respValid && decide (t.pipe = [none])) = true := by
  decide
/-- A word placed for the host runs as the first step after reset. -/
theorem test_placed_word_runs : answers (step (State.reset.withFetchWord 8 0b010)) ⟨0b00#2, 0#4, 1#4, 0#64, 0#72⟩ = true := by
  decide

/-! ## BUF and the requester -/

theorem test_buf_reads_back : buf3.bytes = [0xAA#8, 0xB1#8, 0x04#8, 0x0A#8] := by decide
theorem test_buf_stops_outside : buf3.read 4 = .error (.noSuchByte 4) := rfl
/-- Writing what an unlisted index reads as removes the entry. -/
theorem test_buf_canonical : setCell 1 0x00#8 buf3.cells = [(0, 0xAA#8), (2, 0x04#8), (3, 0x0A#8)] := by decide
/-- The counts of Program 3: three bytes at offset 1, one at offset 3, none at offset 4. -/
theorem test_avail : (availAt 4 1, availAt 4 3, availAt 4 4, availAt 12 0) = (3, 1, 0, 9) := by decide

/-! ## Witnesses: each meets the hypotheses of the statement it is named after -/

theorem test_witness_ClassifyValueResult : (ports 0b000#3 1#64 [] 0#4).op = 0b000#3 ∧ (7 : Nat) < 8 := by decide
theorem test_witness_ClassifyDescResult : (ports 0b001#3 1#64 [] 0#4).op = 0b001#3 := rfl
theorem test_witness_EncodeResult : (ports 0b010#3 1#64 [] 0#4).op = 0b010#3 ∧ 0 < encLen 0 ∧ 8 < encLen (2 ^ 56) ∧
    encLen 0 ≤ 1 := by decide
theorem test_witness_EncodedLengthResult : (ports 0b100#3 1#64 [] 0#4).op = 0b100#3 := rfl
theorem test_witness_DecodeResult : (ports 0b011#3 1#64 [] 0#4).op = 0b011#3 ∧
    dec (packLanes [0xFE#8]) 1 = .ok 127 1 ∧ dec (packLanes [0x01#8]) 1 = .truncated ∧
    kd (lane (packLanes [0x01#8]) 0) + 1 ≤ 2 ∧ 9 ≤ 15 := by decide
theorem test_witness_DecodeCompletesOnAWholeUnit :
    kd (lane (packLanes [0xFF#8]) 0) + 1 ≤ 9 ∧ kd (lane (packLanes [0x00#8]) 0) + 1 ≤ 1 := by decide
theorem test_witness_ReservedCodesAnswerIllegalOp :
    (at0 (ports 0b101#3 0#64 [] 0#4)).inp.rst = false ∧ (at0 (ports 0b101#3 0#64 [] 0#4)).inp.reqValid = true ∧
    (at0 (ports 0b101#3 0#64 [] 0#4)).inp.req.op = 0b101#3 ∧ (at0 (ports 0b110#3 0#64 [] 0#4)).inp.req.op = 0b110#3 ∧
    (at0 (ports 0b111#3 0#64 [] 0#4)).inp.req.op = 0b111#3 := by decide
theorem test_witness_DecodeAndEncodeAgree : WellFormed (.decode 0#72 15) ∧
    decode (ports 0b011#3 7#64 [] 15#4) = .ok (.decode 0#72 15) := ⟨rfl, rfl⟩
theorem test_witness_StepRunsTheDecodedInstruction :
    (at0 (ports 0b010#3 5#64 [] 0#4)).inp.rst = false ∧ (at0 (ports 0b010#3 5#64 [] 0#4)).inp.reqValid = true ∧
    decode (at0 (ports 0b010#3 5#64 [] 0#4)).inp.req = .ok (.encode 5#64) := ⟨rfl, rfl, rfl⟩
theorem test_witness_PlacedWordRuns : decodeTableWord 8 4 = some (.encodedLength 0#64) := rfl
theorem test_witness_KvIsTheLeastBudget : 2 ^ 64 - 1 < 2 ^ 64 ∧ kv (2 ^ 56 - 1) = 7 ∧ kv (2 ^ 56) = 8 := by decide
theorem test_witness_KvTableAndFormula : 0 < 2 ^ 64 ∧ 2 ^ 64 - 1 < 2 ^ 64 := by decide
theorem test_witness_KvIsMonotone : 127 ≤ 128 ∧ kv 127 < kv 128 := by decide
theorem test_witness_KdCountsTheRun : 7 < kd 0xFF#8 ∧ kd 0x7F#8 < 8 := by decide
theorem test_witness_EveryByteIsOneDescriptor : (7 : Nat) < 8 ∧ kd 0x7F#8 = 7 ∧ kd 0xFE#8 = 0 := by decide
theorem test_witness_BudgetTable : (7 : Nat) ≤ 7 ∧ budget 0 = 7 := by decide
theorem test_witness_UnitsHaveTheirForm : (8 : Nat) ≤ 8 ∧ kd 0xFF#8 = 8 ∧ kd 0x7F#8 = 7 ∧ (7 : Nat) < 8 := by decide
theorem test_witness_ValueBitPlacement : 2 ^ 64 - 1 < 2 ^ 64 ∧ 6 < 7 + 7 * 0 ∧ 6 < 7 - 0 ∧ 55 < 7 + 7 * 7 ∧ 7 - 7 ≤ 55 ∧
    (63 : Nat) < 64 := by decide
theorem test_witness_EncIsThePseudocode : 2 ^ 64 - 1 < 2 ^ 64 ∧ kv (2 ^ 64 - 1) = 8 ∧ kv (2 ^ 56 - 1) ≤ 7 := by decide
theorem test_witness_EncodedLengthIsMinimal : (2 ^ 56 : Nat) < 2 ^ budget 8 ∧ (127 : Nat) < 2 ^ budget 0 := by decide
theorem test_witness_EncIsInjective : enc (300#64).toNat = enc (300#64).toNat := rfl
theorem test_witness_DecIsThePseudocode : (8 : Nat) = kd (lane (packLanes [0xFF#8]) 0) ∧ 8 + 1 ≤ 9 ∧
    (7 : Nat) = kd (lane (packLanes [0x7F#8]) 0) ∧ 7 + 1 ≤ 8 ∧ 7 < 7 + 1 := by decide
theorem test_witness_UnitsDecodeToTheirValue : kv (0#64).toNat ≤ 8 ∧ 8 + 1 ≤ 9 ∧ kv (300#64).toNat ≤ 1 ∧ 1 + 1 ≤ 2 := by
  decide
theorem test_witness_CanonicalExactlyWhenEncoded : dec (packLanes [0xB1#8, 0x04#8]) 2 = .ok 300 2 ∧
    dec (packLanes [0xB1#8, 0x04#8, 0x0A#8]) 3 = .ok 300 2 ∧ kd (lane (packLanes [0xB1#8, 0x04#8]) 0) = kv 300 ∧
    kd (lane (packLanes [0xB1#8, 0x04#8, 0x0A#8]) 0) = kv 300 := by decide
theorem test_witness_DecodedValueFits : dec (packLanes (List.replicate 9 0xFF#8)) 9 = .ok (2 ^ 64 - 1) 9 := by decide
theorem test_witness_DecDependsOnItsUnitAlone :
    lane (packLanes [0x01#8]) 0 = lane (packLanes [0x01#8, 0x02#8]) 0 ∧ 1 < kd (lane (packLanes [0x01#8]) 0) + 1 ∧
    dec (packLanes [0x0A#8]) 1 = .ok 5 1 ∧ (∀ i < 1, lane (packLanes [0x0A#8]) i = lane (packLanes [0x0A#8, 0xFF#8]) i) ∧
    1 ≤ 15 := by decide
theorem test_witness_DescriptorAloneIsTruncated : 1 ≤ kd (lane (packLanes [0x01#8]) 0) := by decide
theorem test_witness_StatusCodesAndProducers :
    (responseF (ports 0b000#3 0#64 [] 0#4)).status = Status.code .ok ∧
    (responseF (ports 0b011#3 0#64 [] 0#4)).status = Status.code .truncatedInput ∧
    (responseF (ports 0b101#3 0#64 [] 0#4)).status = Status.code .illegalOp := by decide
theorem test_witness_OnlyDecodeCanFail : (ports 0b100#3 0#64 [] 0#4).op = 0b100#3 := rfl
theorem test_witness_FailedResponsesCarryNothing :
    (responseF (ports 0b011#3 0#64 [] 0#4)).status ≠ Status.code .ok ∧
    (responseF (ports 0b111#3 0#64 [] 0#4)).status ≠ Status.code .ok := by decide
theorem test_witness_UnnamedOutputsAreZero : 5 ≤ (ports 0b101#3 0#64 [] 0#4).op.toNat := by decide
theorem test_witness_UnusedPortsAreIgnored :
    (ports 0b000#3 1#64 [0xFF#8] 3#4).valIn = (ports 0b000#3 1#64 [] 0#4).valIn ∧
    lane (ports 0b001#3 1#64 [0x07#8, 0xFF#8] 3#4).winIn 0 = lane (ports 0b001#3 9#64 [0x07#8] 0#4).winIn 0 ∧
    (∀ i < 9, i < (ports 0b011#3 1#64 [0x0A#8, 0xFF#8] 1#4).avail.toNat →
      lane (ports 0b011#3 1#64 [0x0A#8, 0xFF#8] 1#4).winIn i = lane (ports 0b011#3 9#64 [0x0A#8] 1#4).winIn i) ∧
    5 ≤ (ports 0b111#3 1#64 [] 0#4).op.toNat := by decide
theorem test_witness_InstructionFrame : ∃ t, exec (.encode 5#64) (at0 (ports 0b010#3 5#64 [] 0#4)) = .next t ∧
    WellFormed (.encode 5#64) := ⟨_, rfl, rfl⟩
theorem test_witness_CombinationalCycleAnswersAtOnce : (at0 (ports 0b010#3 5#64 [] 0#4)).pipe = [] ∧
    (at0 (ports 0b010#3 5#64 [] 0#4)).inp.rst = false ∧ (at0 (ports 0b010#3 5#64 [] 0#4)).inp.reqValid = true := by decide
theorem test_witness_CycleWithoutResponseIsSilent : (State.resetAt 1).inp.rst = false ∧ (State.resetAt 1).pipe = [none] ∧
    State.reset.pipe = [] ∧ State.reset.inp.reqValid = false := by decide
theorem test_witness_EveryRunKeepsTheLatency : ∃ t, runDrives [resets, idle] (State.resetAt 1) = .next t := ⟨_, rfl⟩
theorem test_witness_AcceptedRequestIsAnswered :
    (presents (ports 0b010#3 5#64 [] 0#4)).rst = false ∧ (presents (ports 0b010#3 5#64 [] 0#4)).reqValid = true ∧
    [idle, idle].length = (State.resetAt 2).pipe.length ∧ (∀ e ∈ [idle, idle], e.rst = false) ∧
    ([] : List Inputs).length = State.reset.pipe.length := by decide
theorem test_witness_CoreIsADelayedFunction : ∀ e ∈ [idle, presents (ports 0b010#3 5#64 [] 0#4)], e.rst = false := by decide
theorem test_witness_ResetDiscardsRequestsInFlight :
    resets.rst = true ∧ ∀ e ∈ [presents (ports 0b010#3 5#64 [] 0#4)], e.rst = false := by decide
theorem test_witness_ResponsesDoNotDependOnHistory :
    (presents (ports 0b010#3 5#64 [] 0#4)).req = (presents (ports 0b010#3 5#64 [] 0#4)).req ∧
    [idle, idle].length = (State.resetAt 2).pipe.length ∧ [idle].length = (State.resetAt 1).pipe.length ∧
    (∀ e ∈ [idle, idle], e.rst = false) ∧ ∀ e ∈ [idle], e.rst = false := by decide
theorem test_witness_EveryStepKeepsGoodStates : goodState (State.resetAt 2) ∧ ∃ t, step (State.resetAt 2) = .next t :=
  ⟨⟨rfl, fun _ h => by simp at h, State.resetAt_wf 2⟩, _, rfl⟩
theorem test_witness_InvalidDescriptorIsNeverProduced : goodState State.reset ∧
    ∃ t, runDrives [presents (ports 0b011#3 0#64 [0x0A#8] 1#4)] State.reset = .next t ∧ t.respValid = true :=
  ⟨⟨rfl, fun _ h => by simp [State.reset] at h, State.resetAt_wf 0⟩, _, rfl, rfl⟩
theorem test_witness_EncodeThenDecodeReturnsTheValue : State.reset.pipe = [] := rfl
theorem test_witness_InstancesStepOnTheirOwn : ∃ ts t, systemStep [State.reset, State.resetAt 2] = .next ts ∧
    [State.reset, State.resetAt 2][1]? = some (State.resetAt 2) ∧ ts[1]? = some t := ⟨_, _, rfl, rfl, rfl⟩
theorem test_witness_WriteThenRead : 4 ≤ buf3.len ∧ buf3.len ≤ 4 ∧ 3 < buf3.len ∧ buf3.len < 5 ∧ buf3.wf := by decide
theorem test_witness_CanonicalBuffersAreEqual : buf3.wf ∧ buf3.len = buf3.len := by decide
theorem test_witness_WindowFillCopiesTheBuffer : ∃ t, (withBuf buf3).fillWindow 1 [] = .ok t ∧
    2 < t.inp.req.avail.toNat := ⟨_, rfl, by decide⟩
theorem test_witness_RacingFillReadsHeldBytes : (∃ t, (withBuf buf3).fillWindow 1 [(1, 0x00#8)] = .ok t ∧
    2 < t.inp.req.avail.toNat) ∧ (withBuf buf3).buf.len ≤ 4 ∧ (withBuf buf3).buf.wf ∧ 3 < (withBuf buf3).buf.len ∧
    (∀ c ∈ ([(1, 0x00#8)] : List Host.Cell), c.1 ≠ 3) ∧
    ([(3, 0x01#8), (3, 0x02#8), (1, 0x00#8)] : List Host.Cell) = [(3, 0x01#8)] ++ (3, 0x02#8) :: [(1, 0x00#8)] :=
  ⟨⟨_, rfl, by decide⟩, by decide, by decide, by decide, by decide, rfl⟩
/-- The last of another agent's writes stands, and a write outside BUF changes nothing. -/
theorem test_race_last_write : (buf3.afterRace [(3, 0x01#8), (3, 0x02#8), (9, 0xFF#8)]).bytes =
    [0xAA#8, 0xB1#8, 0x04#8, 0x02#8] := by decide
theorem test_witness_DecodeAtReadsTheUnit :
    (withBuf buf3).buf.len ≤ 4 ∧ (withBuf buf3).buf.read 1 = .ok 0xB1#8 ∧
    kd 0xB1#8 + 1 ≤ (withBuf buf3).buf.len - 1 ∧
    (∀ i < kd 0xB1#8 + 1, (withBuf buf3).buf.read (1 + i) = .ok (lane (packLanes [0xB1#8, 0x04#8]) i)) ∧
    (withBuf (Memory.ofBytes [0x01#8])).buf.read 0 = .ok 0x01#8 ∧
    (withBuf (Memory.ofBytes [0x01#8])).buf.len - 0 < kd 0x01#8 + 1 := by decide
theorem test_witness_ReadLoopRecoversEveryValue :
    (withBuf (Memory.ofBytes [0xB1#8, 0x04#8, 0x0A#8])).buf =
      Memory.ofBytes ([300#64, 5#64].flatMap fun v => enc v.toNat) := by decide
theorem test_witness_RequesterKeepsGoodStates : goodState (withBuf buf3) ∧
    (∃ t, (withBuf buf3).fillWindow 0 [] = .ok t) ∧ (∃ t, (withBuf buf3).decodeAt 1 [] = .ok t) ∧
    ∃ t, (withBuf buf3).hostWrite 4 [0xFF#8] = .ok t :=
  ⟨⟨rfl, fun _ h => by simp [withBuf, State.reset] at h, Memory.ofBytes_wf _⟩, ⟨_, rfl⟩, ⟨_, rfl⟩, ⟨_, rfl⟩⟩

end Sys2Proof.Tests
end

section
/-! The encoded unit (`spec/30_encoding.md`, Part B): the budgets, the bits of a unit's bytes, and KD as the length of
the run. -/

namespace Sys2Proof.Machine

/-! ## Budgets -/

/-- A count of 7 or less is not the maximal form's, which `budget`, `descriptor` and `payloadByte` set apart. -/
theorem ne_kMax_of_le_seven {k : Nat} (hk : k ≤ 7) : k ≠ Config.kMax := Nat.ne_of_lt (Nat.lt_succ_of_le hk)

theorem budget_of_le_seven {k : Nat} (hk : k ≤ 7) : budget k = 7 + 7 * k :=
  if_neg (ne_kMax_of_le_seven hk)

theorem budget_maximal : budget 8 = 64 := rfl

/-- Settles O18: R74's two formulas from the two branches of `budget`, and its list by evaluation. -/
theorem budgetTable : Obligations.BudgetTable := by
  refine ⟨fun k hk => ?_, budget_maximal, by decide⟩
  have hb := budget_of_le_seven hk
  exact ⟨by omega, hb⟩

/-! ## The bits of a unit's bytes -/

/-- The run, the clear terminator at bit `k`, and above it the low bits of the value (R71, R76). -/
theorem descriptor_getLsbD {k i : Nat} (hk : k ≤ 7) (hi : i < 8) (v : Nat) :
    (descriptor k v).getLsbD i = (decide (i < k) || decide (k < i) && v.testBit (i - (k + 1))) := by
  rw [descriptor, if_neg (ne_kMax_of_le_seven hk), BitVec.getLsbD_ofNat, Nat.testBit_or,
    Nat.testBit_two_pow_sub_one, Nat.testBit_shiftLeft, Nat.testBit_mod_two_pow]
  by_cases hki : k < i
  · simp [hi, hki, show i - (k + 1) < 7 - k by omega]
  · simp [hi, hki]

/-- The maximal descriptor is a pure marker (R71, R77). -/
@[simp] theorem descriptor_maximal (v : Nat) : descriptor 8 v = 0xFF#8 := rfl

/-- Payload byte `j` holds the eight value bits after the descriptor's `7 - k` and those of the bytes before it (R76). -/
theorem payloadByte_getLsbD {k i : Nat} (hk : k ≤ 7) (hi : i < 8) (v j : Nat) :
    (payloadByte k v j).getLsbD i = v.testBit (7 - k + 8 * j + i) := by
  rw [payloadByte, if_neg (ne_kMax_of_le_seven hk), BitVec.getLsbD_ofNat, Nat.testBit_shiftRight, decide_eq_true hi,
    Bool.true_and]

/-- In the maximal form the payload is the value in little-endian byte order (R77). -/
theorem payloadByte_maximal_getLsbD {i : Nat} (hi : i < 8) (v j : Nat) :
    (payloadByte 8 v j).getLsbD i = v.testBit (8 * j + i) := by
  rw [payloadByte, if_pos (show 8 = Config.kMax from rfl), BitVec.getLsbD_ofNat,
    Nat.testBit_shiftRight, decide_eq_true hi, Bool.true_and]

/-- Settles O20: a bit below `7 - k` is a data bit of the descriptor; any other is bit `q mod 8` of payload byte
`q div 8`, where `8 * (q div 8) + q mod 8 = q`. -/
theorem valueBitPlacement : Obligations.ValueBitPlacement := by
  intro v _
  refine ⟨fun k hk p hp => ⟨fun hlow => ?_, fun hhigh => ?_⟩, ?_, fun p hp => ?_⟩
  · have hbit : k + 1 + p - (k + 1) = p := by omega
    rw [unitOf_descriptor, descriptor_getLsbD hk (by omega), hbit]
    simp [show ¬ k + 1 + p < k by omega, show k < k + 1 + p by omega]
  · have hbyte : (p - (7 - k)) / 8 < k := by omega
    have hbit : 7 - k + 8 * ((p - (7 - k)) / 8) + (p - (7 - k)) % 8 = p := by omega
    rw [Nat.add_comm 1, unitOf_payload hbyte, payloadByte_getLsbD hk (Nat.mod_lt _ (by decide)), hbit]
  · rw [unitOf_descriptor, descriptor_maximal]
  · have hbyte : p / 8 < 8 := by omega
    rw [Nat.add_comm 1, unitOf_payload hbyte, payloadByte_maximal_getLsbD (Nat.mod_lt _ (by decide)), Nat.div_add_mod]

/-! ## KD is the length of the run -/

/-- Where the loop of R103 stops: the bits it passed are set, and the bit it stopped at, if its fuel had not run out, is
clear. -/
theorem runFrom_spec (b : Byte) (k fuel : Nat) :
    k ≤ runFrom b k fuel ∧ runFrom b k fuel ≤ k + fuel ∧
      (∀ i, k ≤ i → i < runFrom b k fuel → b.getLsbD i = true) ∧
      (runFrom b k fuel < k + fuel → b.getLsbD (runFrom b k fuel) = false) := by
  induction fuel generalizing k with
  | zero => exact ⟨le_rfl, le_rfl, fun i hk hi => absurd hi (Nat.not_lt.2 hk), fun h => absurd h (lt_irrefl k)⟩
  | succ fuel ih =>
    rw [runFrom]
    split
    case isTrue hset =>
      obtain ⟨hge, hle, hrun, hstop⟩ := ih (k + 1)
      refine ⟨by omega, by omega, fun i hk hi => ?_, fun h => hstop (by omega)⟩
      rcases Nat.eq_or_lt_of_le hk with rfl | hlt
      · exact hset
      · exact hrun i hlt hi
    case isFalse hclear =>
      exact ⟨le_rfl, by omega, fun i hk hi => absurd hi (Nat.not_lt.2 hk), fun _ => Bool.eq_false_of_not_eq_true hclear⟩

/-- The bits below KD are set (R103). -/
theorem getLsbD_of_lt_kd {b : Byte} {i : Nat} (hi : i < kd b) : b.getLsbD i = true := by
  obtain ⟨-, -, hrun, -⟩ := runFrom_spec b 0 Config.kMax
  exact hrun i i.zero_le hi

/-- Below 8, the bit at KD is the clear terminator (R103). -/
theorem getLsbD_kd {b : Byte} (h : kd b < 8) : b.getLsbD (kd b) = false := by
  obtain ⟨-, -, -, hstop⟩ := runFrom_spec b 0 Config.kMax
  exact hstop h

/-- A byte has count `k` exactly when it has the form that R71 gives for `k`. -/
theorem kd_eq_iff {b : Byte} {k : Nat} (hk : k ≤ 8) :
    kd b = k ↔ (∀ i < k, b.getLsbD i = true) ∧ (k < 8 → b.getLsbD k = false) := by
  constructor
  · rintro rfl
    exact ⟨fun i hi => getLsbD_of_lt_kd hi, getLsbD_kd⟩
  · rintro ⟨hrun, hstop⟩
    rcases Nat.lt_trichotomy (kd b) k with hlt | heq | hgt
    · exact absurd (hrun _ hlt) (by simp [getLsbD_kd (show kd b < 8 by omega)])
    · exact heq
    · have hk8 : k < 8 := lt_of_lt_of_le hgt (kd_le b)
      exact absurd (getLsbD_of_lt_kd hgt) (by simp [hstop hk8])

/-- A byte of count 8 is the maximal-form marker (R71). -/
theorem eq_maximal_of_kd {b : Byte} (h : kd b = 8) : b = 0xFF#8 := by
  refine BitVec.eq_of_getLsbD_eq fun i hi => ?_
  have hones : (0xFF#8 : Byte) = BitVec.allOnes 8 := rfl
  rw [getLsbD_of_lt_kd (by omega), hones, BitVec.getLsbD_allOnes, decide_eq_true hi]

/-- The descriptor of count `k` has KD `k` (R72). -/
theorem kd_descriptor {k : Nat} (hk : k ≤ 8) (v : Nat) : kd (descriptor k v) = k := by
  rcases Nat.eq_or_lt_of_le hk with rfl | hlt
  · rw [descriptor_maximal]
    rfl
  · refine (kd_eq_iff hk).2 ⟨fun i hi => ?_, fun _ => ?_⟩
    · simp [descriptor_getLsbD (show k ≤ 7 by omega) (show i < 8 by omega), hi]
    · simp [descriptor_getLsbD (show k ≤ 7 by omega) hlt]

/-- A byte is the descriptor, for its own count, of the data bits above its terminator. -/
theorem descriptor_kd_shiftRight (b : Byte) : descriptor (kd b) (b.toNat >>> (kd b + 1)) = b := by
  rcases Nat.eq_or_lt_of_le (kd_le b) with hmax | hlt
  · rw [eq_maximal_of_kd hmax]
    rfl
  · refine BitVec.eq_of_getLsbD_eq fun i hi => ?_
    rw [descriptor_getLsbD (by omega) hi, Nat.testBit_shiftRight, BitVec.testBit_toNat]
    rcases Nat.lt_trichotomy i (kd b) with hrun | hterm | hdata
    · simp [hrun, getLsbD_of_lt_kd hrun]
    · simp [hterm, getLsbD_kd hlt]
    · have hbit : kd b + 1 + (i - (kd b + 1)) = i := by omega
      simp [hdata, hbit, Nat.lt_asymm hdata]

/-- The data bits above the terminator are `7 - KD` bits at most. -/
theorem shiftRight_kd_lt (b : Byte) : b.toNat >>> (kd b + 1) < 2 ^ (7 - kd b) := by
  rw [Nat.shiftRight_eq_div_pow, Nat.div_lt_iff_lt_mul (by positivity), ← pow_add]
  calc b.toNat < 2 ^ 8 := b.isLt
    _ ≤ 2 ^ (7 - kd b + (kd b + 1)) := Nat.pow_le_pow_right (by decide) (by omega)

/-- Settles O19: the descriptor's KD is `k`, which by the form of R71 fixes its run and its terminator; conversely a
byte's own data bits are the value whose descriptor it is. -/
theorem unitsHaveTheirForm : Obligations.UnitsHaveTheirForm := by
  intro k hk
  refine ⟨fun v => ?_, fun b hb => ?_⟩
  · have hkd : kd (descriptor k v) = k := kd_descriptor hk v
    obtain ⟨hrun, hterm⟩ := (kd_eq_iff hk).1 hkd
    exact ⟨unitOf_length k v, rfl, fun i hi _ => hrun i hi, fun h7 => hterm (by omega),
      fun h8 => eq_maximal_of_kd (hkd.trans h8), hkd⟩
  · subst hb
    exact ⟨b.toNat >>> (kd b + 1), shiftRight_kd_lt b, descriptor_kd_shiftRight b⟩

end Sys2Proof.Machine
end

section
/-! The length classifier (`spec/40_classifier.md`): KV as the least sufficient budget, and what the two classifying
operations answer. -/

namespace Sys2Proof.Machine

/-! ## KV is the least sufficient budget -/

/-- KV passes a count below 8 exactly when that count's budget is too small for the value (R100). -/
theorem lt_kv_iff {k : Nat} (hk : k < 8) (v : Nat) : k < kv v ↔ 2 ^ (7 + 7 * k) ≤ v := by
  rcases kv_cases v with ⟨_, hfits, hleast⟩ | ⟨hmax, hnone⟩
  · refine ⟨hleast k, fun hv => ?_⟩
    have hpow : 2 ^ (7 + 7 * k) < 2 ^ (7 + 7 * kv v) := lt_of_le_of_lt hv hfits
    have hexp := (Nat.pow_lt_pow_iff_right Nat.one_lt_two).1 hpow
    omega
  · exact ⟨fun _ => hnone k hk, fun _ => hmax ▸ hk⟩

/-- The count `k` is KV exactly when its budget suffices, which for the maximal form is no condition, and every smaller
one is too small. -/
theorem kv_eq_iff {k : Nat} (hk : k ≤ 8) (v : Nat) :
    kv v = k ↔ (k < 8 → v < 2 ^ (7 + 7 * k)) ∧ ∀ j < k, 2 ^ (7 + 7 * j) ≤ v := by
  have hupper : kv v ≤ k ↔ (k < 8 → v < 2 ^ (7 + 7 * k)) := by
    rcases Nat.eq_or_lt_of_le hk with rfl | hlt
    · simp [kv_le]
    · rw [← Nat.not_lt, lt_kv_iff hlt, Nat.not_le]
      simp [hlt]
  have hlower : k ≤ kv v ↔ ∀ j < k, 2 ^ (7 + 7 * j) ≤ v := by
    rw [← forall_lt_iff_le]
    exact forall₂_congr fun j hj => lt_kv_iff (lt_of_lt_of_le hj hk) v
  rw [← hupper, ← hlower, Nat.le_antisymm_iff]

/-- Settles O13: the characterisation of KV at a count below 8, and at 8, where no upper bound is left. -/
theorem kvIsTheLeastBudget : Obligations.KvIsTheLeastBudget := by
  intro v _
  simp only [Nat.not_lt]
  refine ⟨fun k hk => ?_, ?_⟩
  · simpa [hk] using kv_eq_iff hk.le v
  · simpa using kv_eq_iff le_rfl v

/-- The first value past a budget takes one more byte (R101). -/
theorem kv_two_pow_budget {k : Nat} (hk : k < 8) : kv (2 ^ (7 + 7 * k)) = k + 1 :=
  (kv_eq_iff hk _).2 ⟨fun _ => Nat.pow_lt_pow_right Nat.one_lt_two (by omega),
    fun _ hj => Nat.pow_le_pow_right Nat.two_pos (by omega)⟩

/-! ## The two operations -/

theorem decode_of_op_classifyValue {r : Request} (h : r.op = 0b000#3) : decode r = .ok (.classifyValue r.valIn) := by
  simp [decode, h]

theorem decode_of_op_classifyDesc {r : Request} (h : r.op = 0b001#3) :
    decode r = .ok (.classifyDesc (lane r.winIn 0)) := by
  simp [decode, h]

/-- Settles O1: the meaning accepts the request with the written-out response, and KV steps at each budget. -/
theorem classifyValueResult : Obligations.ClassifyValueResult :=
  ⟨fun _ hop => decode_of_op_classifyValue hop, fun v s => exec_eq (.classifyValue v) s, fun v => kv_le v.toNat,
    fun _ hk => kv_two_pow_budget hk, by decide⟩

/-- Settles O2: the meaning accepts the request with the written-out response, and KD at the rule's bytes. -/
theorem classifyDescResult : Obligations.ClassifyDescResult :=
  ⟨fun _ hop => decode_of_op_classifyDesc hop, fun b s => exec_eq (.classifyDesc b) s, kd_le, by decide⟩

/-- Settles O16: the loop's bits below KD are set and the one it stopped at is clear, so a full run is `0xFF`. -/
theorem kdCountsTheRun : Obligations.KdCountsTheRun := fun b =>
  ⟨kd_le b, fun _ hi => getLsbD_of_lt_kd hi, getLsbD_kd, eq_maximal_of_kd, by rintro rfl; rfl⟩

end Sys2Proof.Machine
end

section
/-! The encoder (`spec/41_encoder.md`): no byte of the pseudocode is narrowed, and what the two encoding operations
answer. -/

namespace Sys2Proof.Machine

/-! ## The bytes of a unit as natural numbers -/

/-- Run, terminator and data bits fit the descriptor byte, so its narrowing loses nothing (R120). -/
theorem descriptor_toNat {k : Nat} (hk : k ≤ 7) (v : Nat) :
    (descriptor k v).toNat = (2 ^ k - 1) ||| ((v % 2 ^ (7 - k)) <<< (k + 1)) := by
  have hrun : 2 ^ k - 1 < 2 ^ 8 := by
    calc 2 ^ k - 1 < 2 ^ k := Nat.sub_lt (Nat.two_pow_pos k) Nat.one_pos
      _ ≤ 2 ^ 8 := Nat.pow_le_pow_right Nat.two_pos (by omega)
  have hdata : (v % 2 ^ (7 - k)) <<< (k + 1) < 2 ^ 8 := by
    rw [Nat.shiftLeft_eq]
    calc v % 2 ^ (7 - k) * 2 ^ (k + 1)
      _ < 2 ^ (7 - k) * 2 ^ (k + 1) :=
          Nat.mul_lt_mul_of_pos_right (Nat.mod_lt _ (Nat.two_pow_pos _)) (Nat.two_pow_pos _)
      _ = 2 ^ 8 := by rw [← Nat.pow_add, show 7 - k + (k + 1) = 8 by omega]
  rw [descriptor, if_neg (ne_kMax_of_le_seven hk), BitVec.toNat_ofNat, Nat.mod_eq_of_lt (Nat.or_lt_two_pow hrun hdata)]

/-- A payload byte is the value shifted past the bits of the bytes before it, modulo `2 ^ 8` (R120). -/
theorem payloadByte_toNat {k : Nat} (hk : k ≤ 7) (v j : Nat) :
    (payloadByte k v j).toNat = (v >>> ((7 - k) + 8 * j)) % 2 ^ 8 := by
  rw [payloadByte, if_neg (ne_kMax_of_le_seven hk), BitVec.toNat_ofNat]

/-- In the maximal form the descriptor holds no bit of the value, so the payload starts at bit 0 (R120). -/
theorem payloadByte_maximal_toNat (v j : Nat) : (payloadByte 8 v j).toNat = (v >>> (8 * j)) % 2 ^ 8 := by
  rw [payloadByte, if_pos (show 8 = Config.kMax from rfl), BitVec.toNat_ofNat]

theorem unitOf_map_toNat (k v : Nat) :
    (unitOf k v).map BitVec.toNat = (descriptor k v).toNat :: (List.range k).map fun j => (payloadByte k v j).toNat := by
  rw [unitOf, List.map_cons, List.map_map]
  rfl

/-- Settles O21: in each branch of R120 the unit's bytes, read as numbers, are the pseudocode's. -/
theorem encIsThePseudocode : Obligations.EncIsThePseudocode := by
  intro v _
  refine ⟨fun hmax => ?_, fun hk => ?_⟩
  · rw [enc, hmax, unitOf_map_toNat]
    simp only [descriptor_maximal, payloadByte_maximal_toNat]
    rfl
  · rw [enc, unitOf_map_toNat, descriptor_toNat hk]
    simp only [payloadByte_toNat hk]

/-! ## The length of the canonical unit -/

theorem encLen_pos (v : Nat) : 1 ≤ encLen v := Nat.le_add_left 1 (kv v)

theorem encLen_le (v : Nat) : encLen v ≤ 9 := Nat.succ_le_succ (kv_le v)

/-- ENCODE's length port carries LEN of the value (R121). -/
theorem encodeResponse_eq (v : Value) :
    encodeResponse v =
      { okResponse with lenOut := BitVec.ofNat 4 (encLen v.toNat), encOut := packLanes (enc v.toNat) } := by
  rw [encodeResponse, enc_length]

/-! ## The lanes of a packed byte list -/

/-- Each byte of a list that fits the bus stands in the lane of its index (R25). -/
theorem getElem?_eq_lane_packLanes {bytes : List Byte} {i : Nat} (hi : i < bytes.length) (h9 : i < 9) :
    bytes[i]? = some (lane (packLanes bytes) i) := by
  rw [lane_packLanes bytes i h9, List.getD_eq_getElem _ _ hi, List.getElem?_eq_getElem hi]

/-- The lanes past the list hold `0x00` (R25). -/
theorem lane_packLanes_of_length_le {bytes : List Byte} {i : Nat} (hi : bytes.length ≤ i) (h9 : i < 9) :
    lane (packLanes bytes) i = 0x00#8 := by
  rw [lane_packLanes bytes i h9, List.getD_eq_default _ _ hi]

/-! ## The two operations -/

theorem decode_of_op_encode {r : Request} (h : r.op = 0b010#3) : decode r = .ok (.encode r.valIn) := by
  simp [decode, h]

theorem decode_of_op_encodedLength {r : Request} (h : r.op = 0b100#3) : decode r = .ok (.encodedLength r.valIn) := by
  simp [decode, h]

/-- Settles O3: the meaning accepts the request with LEN and the packed unit, whose LEN bytes fill the low lanes and
leave the others `0x00`. -/
theorem encodeResult : Obligations.EncodeResult := by
  refine ⟨fun _ hop => decode_of_op_encode hop, fun v s => ?_, fun v => ?_, by decide⟩
  · rw [exec_eq, responseOf, encodeResponse_eq]
    rfl
  · have hlen : (enc v.toNat).length = encLen v.toNat := enc_length v.toNat
    have hle : encLen v.toNat ≤ 9 := encLen_le v.toNat
    exact ⟨hlen, encLen_pos v.toNat, hle,
      fun i hi => getElem?_eq_lane_packLanes (hlen.symm ▸ hi) (lt_of_lt_of_le hi hle),
      fun i h9 hi => lane_packLanes_of_length_le (hlen.symm ▸ hi) h9⟩

/-- Settles O4: the meaning accepts the request with LEN alone, which is also what ENCODE's length port carries. -/
theorem encodedLengthResult : Obligations.EncodedLengthResult := by
  refine ⟨fun _ hop => decode_of_op_encodedLength hop, fun v s => exec_eq (.encodedLength v) s, fun v => ?_, by decide⟩
  exact ⟨encLen_pos v.toNat, encLen_le v.toNat, by rw [encodeResponse_eq, encodedLengthResponse]⟩

end Sys2Proof.Machine
end

section
/-! The decoder (`spec/42_decoder.md`): DEC as the pseudocode over natural numbers, and what DECODE answers. -/

namespace Sys2Proof.Machine

/-! ## The compositor -/

/-- The payload's list sum as a sum over byte indices (R144, R145). -/
theorem payloadSum_eq_sum (u : Bus) (shift n : Nat) :
    payloadSum u shift n = ∑ j ∈ Finset.range n, (lane u (j + 1)).toNat <<< (shift + 8 * j) :=
  rfl

/-- In the maximal form the payload bytes alone are the value, from bit 0 on (R144). -/
theorem composite_maximal (u : Bus) :
    composite u 8 = ∑ j ∈ Finset.range 8, (lane u (j + 1)).toNat <<< (8 * j) := by
  rw [composite, if_pos (show 8 = Config.kMax from rfl), payloadSum_eq_sum]
  simp only [Nat.zero_add]

/-- Below the maximal form the payload stands above the descriptor's data bits (R145). -/
theorem composite_of_le_seven {k : Nat} (hk : k ≤ 7) (u : Bus) :
    composite u k = ((lane u 0).toNat >>> (k + 1)) +
      ∑ j ∈ Finset.range k, (lane u (j + 1)).toNat <<< ((7 - k) + 8 * j) := by
  rw [composite, if_neg (ne_kMax_of_le_seven hk), payloadSum_eq_sum, windowByte]

/-! ## The two answers of DEC -/

section dec
variable {u : Bus} {a : Nat}

/-- A count short of the unit is TRUNCATED_INPUT (R141, R143). -/
theorem dec_of_lt (h : a < kd (lane u 0) + 1) : dec u a = .truncated := by
  rcases dec_cases u a with ⟨-, htrunc⟩ | ⟨hle, -⟩
  · exact htrunc
  · exact absurd hle (Nat.not_le.2 h)

/-- A whole unit decodes to its composite value and its own length (R146). -/
theorem dec_of_le (h : kd (lane u 0) + 1 ≤ a) :
    dec u a = .ok (composite u (kd (lane u 0))) (kd (lane u 0) + 1) := by
  rcases dec_cases u a with ⟨hlt, -⟩ | ⟨-, hok⟩
  · exact absurd h (Nat.not_le.2 hlt)
  · exact hok

theorem dec_eq_truncated_iff : dec u a = .truncated ↔ a < kd (lane u 0) + 1 := by
  refine ⟨fun htrunc => Nat.not_le.1 fun hle => ?_, dec_of_lt⟩
  rw [dec_of_le hle] at htrunc
  cases htrunc

/-- Bytes past the unit change nothing (R146). -/
theorem dec_eq_dec_of_le {b : Nat} (ha : kd (lane u 0) + 1 ≤ a) (hb : kd (lane u 0) + 1 ≤ b) : dec u a = dec u b :=
  (dec_of_le ha).trans (dec_of_le hb).symm

/-- No unit is longer than nine bytes, so a count of 9 or more behaves like 9 (R140). -/
theorem dec_of_nine_le (h : 9 ≤ a) : dec u a = dec u 9 :=
  have hunit : kd (lane u 0) + 1 ≤ 9 := Nat.succ_le_succ (kd_le _)
  dec_eq_dec_of_le (hunit.trans h) hunit

end dec

/-- Settles O25: the count alone chooses between DEC's two answers, and the compositor's two branches are the
pseudocode's sums. -/
theorem decIsThePseudocode : Obligations.DecIsThePseudocode := by
  rintro u a k rfl
  refine ⟨fun hzero => ?_, dec_of_lt, fun hle hmax => ?_, fun hle hk => ?_, dec_of_nine_le⟩
  · exact dec_of_lt (hzero ▸ Nat.succ_pos _)
  · rw [dec_of_le hle, hmax, composite_maximal]
  · rw [dec_of_le hle, composite_of_le_seven hk]

/-! ## The operation -/

theorem decode_of_op_decode {r : Request} (h : r.op = 0b011#3) : decode r = .ok (.decode r.winIn r.avail.toNat) := by
  simp [decode, h]

section decodeResponse
variable {u : Bus} {a : Nat}

/-- A decoded unit is answered with its value and its length (R148). -/
theorem decodeResponse_of_ok {value consumed : Nat} (h : dec u a = .ok value consumed) :
    decodeResponse u a =
      { okResponse with lenOut := BitVec.ofNat 4 consumed, valOut := BitVec.ofNat 64 value } := by
  simp only [decodeResponse, h]

/-- A unit that is cut short is answered with its status alone (R148, R175). -/
theorem decodeResponse_of_truncated (h : dec u a = .truncated) :
    decodeResponse u a = failResponse .truncatedInput := by
  simp only [decodeResponse, h]

end decodeResponse

/-- Settles O5: the meaning accepts the request with the response of DEC's answer; which answer that is depends on the
count and the descriptor alone, and `a = 0` is one of the counts short of every unit. -/
theorem decodeResult : Obligations.DecodeResult := by
  refine ⟨fun _ hop => decode_of_op_decode hop, fun u a value consumed s hok => ?_, fun u a s htrunc => ?_,
    fun u a => ?_, fun _ _ hle => dec_eq_dec_of_le hle le_rfl, fun _ _ => dec_of_nine_le, by decide⟩
  · rw [exec_eq, responseOf, decodeResponse_of_ok hok]
    rfl
  · rw [exec_eq, responseOf, decodeResponse_of_truncated htrunc]
    rfl
  · rw [dec_eq_truncated_iff]
    omega

end Sys2Proof.Machine
end

section
/-! The status of a response (`spec/60_exceptions.md`): which operations can fail. -/

namespace Sys2Proof.Machine

/-! ## The operations that never fail -/

@[simp] theorem classifyValueResponse_status (v : Value) : (classifyValueResponse v).status = Status.code .ok := rfl

@[simp] theorem classifyDescResponse_status (b : Byte) : (classifyDescResponse b).status = Status.code .ok := rfl

@[simp] theorem encodeResponse_status (v : Value) : (encodeResponse v).status = Status.code .ok := rfl

@[simp] theorem encodedLengthResponse_status (v : Value) : (encodedLengthResponse v).status = Status.code .ok := rfl

/-- Settles O32: each of the four op codes selects its operation, whose response says OK for every operand. -/
theorem onlyDecodeCanFail : Obligations.OnlyDecodeCanFail := by
  rintro r (hop | hop | hop | hop)
  · rw [responseF_of_ok (decode_of_op_classifyValue hop), responseOf, classifyValueResponse_status]
  · rw [responseF_of_ok (decode_of_op_classifyDesc hop), responseOf, classifyDescResponse_status]
  · rw [responseF_of_ok (decode_of_op_encode hop), responseOf, encodeResponse_status]
  · rw [responseF_of_ok (decode_of_op_encodedLength hop), responseOf, encodedLengthResponse_status]

end Sys2Proof.Machine
end

section
/-! The codec's round trip (`spec/41_encoder.md`, `spec/42_decoder.md`): the value a unit holds, in one formula for all nine
forms, and what it says of ENC and DEC. -/

namespace Sys2Proof.Machine

/-! ## Little-endian payloads -/

/-- The number whose `n` little-endian bytes are `f 0, …, f (n - 1)`. -/
def littleEndian (f : Nat → Byte) (n : Nat) : Nat := ∑ j ∈ Finset.range n, (f j).toNat * 2 ^ (8 * j)

theorem littleEndian_succ (f : Nat → Byte) (n : Nat) :
    littleEndian f (n + 1) = (f 0).toNat + 2 ^ 8 * littleEndian (fun j => f (j + 1)) n := by
  have hshift : ∀ j, (f (j + 1)).toNat * 2 ^ (8 * (j + 1)) = 2 ^ 8 * ((f (j + 1)).toNat * 2 ^ (8 * j)) := fun j => by
    rw [Nat.mul_add_one, Nat.pow_add]
    ring
  rw [littleEndian, Finset.sum_range_succ', Finset.sum_congr rfl fun j _ => hshift j, ← Finset.mul_sum, littleEndian]
  omega

theorem littleEndian_congr {f g : Nat → Byte} {n : Nat} (h : ∀ j < n, f j = g j) : littleEndian f n = littleEndian g n :=
  Finset.sum_congr rfl fun j hj => by rw [h j (Finset.mem_range.1 hj)]

theorem littleEndian_lt (f : Nat → Byte) (n : Nat) : littleEndian f n < 2 ^ (8 * n) := by
  induction n generalizing f with
  | zero => simp [littleEndian]
  | succ n ih =>
    have hhead : (f 0).toNat < 2 ^ 8 := (f 0).isLt
    have htail := ih fun j => f (j + 1)
    rw [littleEndian_succ, Nat.mul_add_one, Nat.pow_add]
    omega

/-- Each byte is read back from the number. -/
theorem ofNat_littleEndian_shiftRight (f : Nat → Byte) {n j : Nat} (hj : j < n) :
    BitVec.ofNat 8 (littleEndian f n >>> (8 * j)) = f j := by
  induction n generalizing f j with
  | zero => exact absurd hj j.not_lt_zero
  | succ n ih =>
    have hhead : (f 0).toNat < 2 ^ 8 := (f 0).isLt
    rw [littleEndian_succ]
    cases j with
    | zero =>
      refine BitVec.eq_of_toNat_eq ?_
      rw [BitVec.toNat_ofNat, Nat.mul_zero, Nat.shiftRight_zero]
      omega
    | succ j =>
      have hdrop : ((f 0).toNat + 2 ^ 8 * littleEndian (fun j => f (j + 1)) n) >>> 8 =
          littleEndian (fun j => f (j + 1)) n := by
        rw [Nat.shiftRight_eq_div_pow]
        omega
      rw [Nat.mul_add_one, Nat.add_comm (8 * j), Nat.shiftRight_add, hdrop]
      exact ih (fun j => f (j + 1)) (Nat.lt_of_succ_lt_succ hj)

/-- The low bytes of a number, put together again. -/
theorem littleEndian_ofNat_shiftRight (x n : Nat) :
    littleEndian (fun j => BitVec.ofNat 8 (x >>> (8 * j))) n = x % 2 ^ (8 * n) := by
  induction n with
  | zero => simp [littleEndian, Nat.mod_one]
  | succ n ih =>
    rw [littleEndian, Finset.sum_range_succ, ← littleEndian, ih, BitVec.toNat_ofNat, Nat.shiftRight_eq_div_pow,
      Nat.mul_add_one, Nat.pow_add, Nat.mod_mul, Nat.mul_comm (2 ^ (8 * n))]

/-! ## One formula for the nine forms

The maximal form's descriptor holds `7 - 8 = 0` data bits, so with natural-number subtraction the formulas of R76 and R145
say of `k = 8` what R77 and R144 do. -/

theorem budget_eq {k : Nat} (hk : k ≤ 8) : budget k = 7 - k + 8 * k := by
  rcases Nat.eq_or_lt_of_le hk with rfl | hlt
  · rfl
  · rw [budget_of_le_seven (by omega)]
    omega

/-- The data bits above a descriptor's terminator are the value's low bits. -/
theorem descriptor_shiftRight {k : Nat} (hk : k ≤ 8) (v : Nat) :
    (descriptor k v).toNat >>> (k + 1) = v % 2 ^ (7 - k) := by
  rcases Nat.eq_or_lt_of_le hk with rfl | hlt
  · simp [Nat.mod_one]
  · have hrun : (2 ^ k - 1) >>> (k + 1) = 0 := Nat.shiftRight_eq_zero _ _ <|
      calc 2 ^ k - 1 < 2 ^ k := Nat.sub_lt (Nat.two_pow_pos k) Nat.one_pos
        _ < 2 ^ (k + 1) := Nat.pow_lt_pow_right Nat.one_lt_two k.lt_succ_self
    rw [descriptor_toNat (by omega), Nat.shiftRight_or_distrib, hrun, Nat.zero_or, Nat.shiftLeft_shiftRight]

/-- A descriptor depends on no bit of the value above its data bits. -/
theorem descriptor_mod (k v : Nat) : descriptor k (v % 2 ^ (7 - k)) = descriptor k v := by
  rw [descriptor, descriptor, Nat.mod_mod]

theorem payloadByte_eq {k : Nat} (hk : k ≤ 8) (v j : Nat) :
    payloadByte k v j = BitVec.ofNat 8 ((v >>> (7 - k)) >>> (8 * j)) := by
  rw [← Nat.shiftRight_add]
  rcases Nat.eq_or_lt_of_le hk with rfl | hlt
  · rw [payloadByte, if_pos (show 8 = Config.kMax from rfl), Nat.zero_add]
  · rw [payloadByte, if_neg (ne_kMax_of_le_seven (by omega))]

/-- The payload of a window: its lanes `1 .. k` as one number. -/
def payload (u : Bus) (k : Nat) : Nat := littleEndian (fun j => lane u (j + 1)) k

theorem payload_lt (u : Bus) (k : Nat) : payload u k < 2 ^ (8 * k) := littleEndian_lt _ k

/-- The compositor puts the payload above the descriptor's data bits (R144, R145). -/
theorem composite_eq {k : Nat} (hk : k ≤ 8) (u : Bus) :
    composite u k = (lane u 0).toNat >>> (k + 1) + 2 ^ (7 - k) * payload u k := by
  rw [payload, littleEndian, Finset.mul_sum]
  rcases Nat.eq_or_lt_of_le hk with rfl | hlt
  · have hmark : (lane u 0).toNat >>> (8 + 1) = 0 :=
      Nat.shiftRight_eq_zero _ _ (lt_trans (lane u 0).isLt (by decide))
    rw [composite_maximal, hmark, Nat.zero_add]
    exact Finset.sum_congr rfl fun j _ => by rw [Nat.shiftLeft_eq]; ring
  · rw [composite_of_le_seven (by omega)]
    exact congrArg _ (Finset.sum_congr rfl fun j _ => by rw [Nat.shiftLeft_eq, Nat.pow_add]; ring)

/-- The compositor reads no lane past the unit. -/
theorem composite_congr {u u' : Bus} {k : Nat} (hk : k ≤ 8) (h : ∀ i < k + 1, lane u i = lane u' i) :
    composite u k = composite u' k := by
  have hpayload : payload u k = payload u' k := littleEndian_congr fun j hj => h (j + 1) (Nat.succ_lt_succ hj)
  rw [composite_eq hk, composite_eq hk, hpayload, h 0 k.succ_pos]

/-! ## From a value to its units and back -/

/-- The window whose low lanes hold a unit of count `k` for a value within the budget composes to that value. -/
theorem composite_of_unit {k v : Nat} {u : Bus} (hk : k ≤ 8) (hv : v < 2 ^ budget k)
    (hu : ∀ i < k + 1, lane u i = (unitOf k v).getD i 0#8) : composite u k = v := by
  have hdesc : lane u 0 = descriptor k v := hu 0 k.succ_pos
  have hhigh : v >>> (7 - k) < 2 ^ (8 * k) := by
    rw [budget_eq hk, Nat.pow_add] at hv
    rw [Nat.shiftRight_eq_div_pow]
    exact Nat.div_lt_of_lt_mul hv
  have hpayload : payload u k = v >>> (7 - k) := by
    have hbytes : ∀ j < k, lane u (j + 1) = BitVec.ofNat 8 ((v >>> (7 - k)) >>> (8 * j)) := fun j hj => by
      rw [hu (j + 1) (Nat.succ_lt_succ hj), unitOf_payload hj, payloadByte_eq hk]
    rw [payload, littleEndian_congr hbytes, littleEndian_ofNat_shiftRight, Nat.mod_eq_of_lt hhigh]
  rw [composite_eq hk, hdesc, descriptor_shiftRight hk, hpayload, Nat.shiftRight_eq_div_pow, Nat.mod_add_div]

/-- The value fits a count's budget exactly when KV does not pass the count (R100, R129). -/
theorem lt_two_pow_budget_iff {k v : Nat} (hk : k ≤ 8) (hv : v < 2 ^ 64) : v < 2 ^ budget k ↔ kv v ≤ k := by
  rcases Nat.eq_or_lt_of_le hk with rfl | hlt
  · exact ⟨fun _ => kv_le v, fun _ => hv⟩
  · rw [budget_of_le_seven (by omega), ← Nat.not_le, ← lt_kv_iff hlt, Nat.not_lt]

/-- Every unit that can hold a value decodes to it from any window that holds the unit in its low lanes. -/
theorem dec_of_unit {k v a : Nat} {u : Bus} (hv : v < 2 ^ 64) (hkv : kv v ≤ k) (hk : k ≤ 8) (ha : k + 1 ≤ a)
    (hu : ∀ i < k + 1, lane u i = (unitOf k v).getD i 0#8) : dec u a = .ok v (k + 1) := by
  have hkd : kd (lane u 0) = k := by rw [hu 0 k.succ_pos, unitOf_descriptor, kd_descriptor hk]
  rw [dec_of_le (hkd.symm ▸ ha), hkd, composite_of_unit hk ((lt_two_pow_budget_iff hk hv).2 hkv) hu]

/-- Settles O26: packing puts the unit in the low lanes, from which DEC reads the value back. -/
theorem unitsDecodeToTheirValue : Obligations.UnitsDecodeToTheirValue := fun v _ _ hkv hk ha =>
  dec_of_unit v.isLt hkv hk ha fun i hi => lane_packLanes _ i (by omega)

/-- The round trip of R150: the canonical unit decodes to its value and LEN. -/
theorem dec_packLanes_enc (v : Value) {a : Nat} (ha : encLen v.toNat ≤ a) :
    dec (packLanes (enc v.toNat)) a = .ok v.toNat (encLen v.toNat) :=
  unitsDecodeToTheirValue v (kv v.toNat) a le_rfl (kv_le _) ha

/-! ## The encoder -/

/-- A count of nine at most fits a four-bit port. -/
theorem count_toNat {n : Nat} (h : n ≤ 9) : (BitVec.ofNat 4 n).toNat = n :=
  BitVec.toNat_ofNat n 4 ▸ Nat.mod_eq_of_lt (by omega)

/-- KD reads KV off a packed canonical unit (R128). -/
theorem kd_lane_packLanes_enc (v : Nat) : kd (lane (packLanes (enc v)) 0) = kv v := by
  rw [lane_packLanes _ 0 (by decide), enc, unitOf_descriptor, kd_descriptor (kv_le _)]

/-- Settles O22: ENCODE's length port has room for LEN, and KD reads KV off the packed descriptor. -/
theorem lengthsAgree : Obligations.LengthsAgree := by
  intro v
  have hport : (BitVec.ofNat 4 (encLen v.toNat)).toNat = encLen v.toNat := count_toNat (encLen_le _)
  have hencode : responseF (encode (.encode v)) = encodeResponse v := responseF_of_ok (i := .encode v) rfl
  have hlength : responseF (encode (.encodedLength v)) = encodedLengthResponse v :=
    responseF_of_ok (i := .encodedLength v) rfl
  refine ⟨?_, ?_, enc_length v.toNat, ?_⟩
  · rw [hencode, encodeResponse_eq]
    exact hport
  · rw [hlength]
    exact hport
  · rw [hencode, encodeResponse_eq, kd_lane_packLanes_enc]

/-- Settles O23: a budget holds the value exactly when its count is KV or more. -/
theorem encodedLengthIsMinimal : Obligations.EncodedLengthIsMinimal := by
  intro v
  refine ⟨⟨kv v.toNat, kv_le _, rfl, (lt_two_pow_budget_iff (kv_le _) v.isLt).2 le_rfl⟩, fun k hk hfits => ?_⟩
  exact Nat.succ_le_succ ((lt_two_pow_budget_iff hk v.isLt).1 hfits)

/-- Settles O24: equal units decode to one value. -/
theorem encIsInjective : Obligations.EncIsInjective := by
  intro v w h
  have hv := dec_packLanes_enc v (encLen_le _)
  have hw := dec_packLanes_enc w (encLen_le _)
  rw [h, hw, DecResult.ok.injEq] at hv
  exact BitVec.eq_of_toNat_eq hv.1.symm

/-! ## The decoder -/

/-- DEC answers a value exactly when the window holds the whole unit: its composite and its length. -/
theorem dec_eq_ok_iff {u : Bus} {a w n : Nat} :
    dec u a = .ok w n ↔ kd (lane u 0) + 1 ≤ a ∧ composite u (kd (lane u 0)) = w ∧ kd (lane u 0) + 1 = n := by
  constructor
  · intro h
    rcases dec_cases u a with ⟨-, htrunc⟩ | ⟨hle, hok⟩
    · rw [htrunc] at h
      cases h
    · rw [hok, DecResult.ok.injEq] at h
      exact ⟨hle, h⟩
  · rintro ⟨hle, rfl, rfl⟩
    exact dec_of_le hle

/-- A decoded value fits its budget (R151). -/
theorem composite_lt (u : Bus) : composite u (kd (lane u 0)) < 2 ^ budget (kd (lane u 0)) := by
  have hdata := shiftRight_kd_lt (lane u 0)
  have hpayload := payload_lt u (kd (lane u 0))
  rw [composite_eq (kd_le _), budget_eq (kd_le _), Nat.pow_add]
  calc (lane u 0).toNat >>> (kd (lane u 0) + 1) + 2 ^ (7 - kd (lane u 0)) * payload u (kd (lane u 0))
    _ < 2 ^ (7 - kd (lane u 0)) * (payload u (kd (lane u 0)) + 1) := by rw [Nat.mul_add_one]; omega
    _ ≤ 2 ^ (7 - kd (lane u 0)) * 2 ^ (8 * kd (lane u 0)) := Nat.mul_le_mul_left _ hpayload

theorem budget_le {k : Nat} (hk : k ≤ 8) : budget k ≤ 64 := by
  rw [budget_eq hk]
  omega

/-- The compositor's value has 64 bits at most. -/
theorem composite_lt_two_pow_64 (u : Bus) : composite u (kd (lane u 0)) < 2 ^ 64 :=
  lt_of_lt_of_le (composite_lt u) (Nat.pow_le_pow_right Nat.two_pos (budget_le (kd_le _)))

/-- Settles O28: the data bits and the payload fill the budget exactly, and KD is 8 at most. -/
theorem decodedValueFits : Obligations.DecodedValueFits := by
  intro u a w n h
  obtain ⟨-, rfl, rfl⟩ := dec_eq_ok_iff.1 h
  exact ⟨composite_lt u, composite_lt_two_pow_64 u, Nat.succ_pos _, Nat.succ_le_succ (kd_le _)⟩

/-- A window's unit is the unit, of its own count, of the value it composes to: no byte of it is lost. -/
theorem unitOf_composite (u : Bus) :
    unitOf (kd (lane u 0)) (composite u (kd (lane u 0))) = lanes u (kd (lane u 0) + 1) := by
  have hk : kd (lane u 0) ≤ 8 := kd_le _
  have hdata := shiftRight_kd_lt (lane u 0)
  have hcomp := composite_eq hk u
  have hlow : composite u (kd (lane u 0)) % 2 ^ (7 - kd (lane u 0)) = (lane u 0).toNat >>> (kd (lane u 0) + 1) := by
    rw [hcomp, Nat.add_mul_mod_self_left, Nat.mod_eq_of_lt hdata]
  have hhigh : composite u (kd (lane u 0)) >>> (7 - kd (lane u 0)) = payload u (kd (lane u 0)) := by
    rw [Nat.shiftRight_eq_div_pow, hcomp, Nat.add_mul_div_left _ _ (Nat.two_pow_pos _), Nat.div_eq_of_lt hdata,
      Nat.zero_add]
  have hdesc : descriptor (kd (lane u 0)) (composite u (kd (lane u 0))) = lane u 0 := by
    rw [← descriptor_mod, hlow, descriptor_kd_shiftRight]
  have hbytes : ∀ j < kd (lane u 0), payloadByte (kd (lane u 0)) (composite u (kd (lane u 0))) j = lane u (j + 1) :=
    fun j hj => by rw [payloadByte_eq hk, hhigh, payload, ofNat_littleEndian_shiftRight _ hj]
  rw [unitOf, hdesc, lanes, List.range_succ_eq_map, List.map_cons, List.map_map]
  exact congrArg _ (List.map_congr_left fun j hj => hbytes j (List.mem_range.1 hj))

/-- What ENC makes of a decoded value is the window's unit exactly when the unit's count is canonical. -/
theorem enc_eq_lanes_iff {u : Bus} {a w n : Nat} (h : dec u a = .ok w n) :
    enc w = lanes u n ↔ kd (lane u 0) = kv w := by
  obtain ⟨-, rfl, rfl⟩ := dec_eq_ok_iff.1 h
  constructor
  · intro henc
    have hlen := congrArg List.length henc
    rw [enc_length, lanes, List.length_map, List.length_range] at hlen
    exact (Nat.succ.inj hlen).symm
  · intro hcanon
    rw [enc, ← hcanon, unitOf_composite]

/-- Settles O27: two canonical units with one value are both that value's ENC. -/
theorem canonicalExactlyWhenEncoded : Obligations.CanonicalExactlyWhenEncoded := by
  refine ⟨fun _ _ _ _ h => enc_eq_lanes_iff h, fun u u' a a' w n n' h h' hcanon hcanon' => ?_⟩
  exact ((enc_eq_lanes_iff h).2 hcanon).symm.trans ((enc_eq_lanes_iff h').2 hcanon')

/-- Settles O29: the descriptor alone decides where a unit is cut short, and the compositor reads the unit's lanes only. -/
theorem decDependsOnItsUnitAlone : Obligations.DecDependsOnItsUnitAlone := by
  refine ⟨fun u u' => ?_, fun u u' a hdesc ha => ?_, fun u u' a a' w n h hlanes ha' => ?_⟩
  · rw [dec_of_lt (Nat.succ_pos _), dec_of_lt (Nat.succ_pos _)]
  · rw [dec_of_lt ha, dec_of_lt (hdesc ▸ ha)]
  · obtain ⟨-, rfl, rfl⟩ := dec_eq_ok_iff.1 h
    have hdesc : lane u 0 = lane u' 0 := hlanes 0 (Nat.succ_pos _)
    rw [dec_eq_ok_iff, ← hdesc]
    exact ⟨ha', (composite_congr (kd_le _) hlanes).symm, rfl⟩

/-- Settles O30: one byte is short of any unit whose descriptor has a run. -/
theorem descriptorAloneIsTruncated : Obligations.DescriptorAloneIsTruncated := fun _ hrun =>
  dec_of_lt (Nat.lt_succ_of_le hrun)

/-- Settles O6: a whole unit is answered OK, and the compositor's two branches weigh its bytes by powers of two. -/
theorem decodeCompletesOnAWholeUnit : Obligations.DecodeCompletesOnAWholeUnit := by
  intro u a s ha
  rw [exec_eq, responseOf, decodeResponse_of_ok (dec_of_le ha)]
  split
  case isTrue hmax =>
    rw [hmax, composite_maximal]
    simp only [Nat.shiftLeft_eq]
    rfl
  case isFalse hmax =>
    have hk : kd (lane u 0) ≤ 7 := Nat.le_of_lt_succ (lt_of_le_of_ne (kd_le _) hmax)
    rw [composite_of_le_seven hk, Nat.shiftRight_eq_div_pow]
    simp only [Nat.shiftLeft_eq]
    rfl

/-! ## The classifier's derived facts -/

/-- Settles O15: a budget passed by the smaller value is passed by the larger. -/
theorem kvIsMonotone : Obligations.KvIsMonotone := by
  intro v w hvw
  by_contra hlt
  have hw8 : kv w < 8 := lt_of_lt_of_le (Nat.lt_of_not_le hlt) (kv_le v)
  have hfits : w < 2 ^ (7 + 7 * kv w) := Nat.lt_of_not_le fun h => lt_irrefl _ ((lt_kv_iff hw8 w).2 h)
  have hpassed : 2 ^ (7 + 7 * kv w) ≤ v := (lt_kv_iff hw8 v).1 (Nat.lt_of_not_le hlt)
  omega

/-- The ranges of R102's table are the budgets that KV has passed. -/
theorem kv_table (v : Nat) :
    kv v = (if v ≤ 0x7F then 0 else if v ≤ 0x3FFF then 1 else if v ≤ 0x1FFFFF then 2 else if v ≤ 0xFFFFFFF then 3
      else if v ≤ 0x7FFFFFFFF then 4 else if v ≤ 0x3FFFFFFFFFF then 5 else if v ≤ 0x1FFFFFFFFFFFF then 6
      else if v ≤ 0xFFFFFFFFFFFFFF then 7 else 8) := by
  have hle := kv_le v
  have h0 := lt_kv_iff (show 0 < 8 by decide) v
  have h1 := lt_kv_iff (show 1 < 8 by decide) v
  have h2 := lt_kv_iff (show 2 < 8 by decide) v
  have h3 := lt_kv_iff (show 3 < 8 by decide) v
  have h4 := lt_kv_iff (show 4 < 8 by decide) v
  have h5 := lt_kv_iff (show 5 < 8 by decide) v
  have h6 := lt_kv_iff (show 6 < 8 by decide) v
  have h7 := lt_kv_iff (show 7 < 8 by decide) v
  norm_num only at h0 h1 h2 h3 h4 h5 h6 h7
  split_ifs <;> omega

/-- R102's closed formula: a budget `7 + 7k` is passed exactly when the bit length exceeds it. -/
theorem kv_eq_min (v : Nat) : kv v = min 8 ((Nat.size v + 6) / 7 - 1) := by
  refine (kv_eq_iff (min_le_left _ _) v).2 ⟨fun hlt => ?_, fun j hj => ?_⟩
  · exact Nat.size_le.1 (by omega)
  · exact Nat.lt_size.1 (by omega)

/-- Settles O14. -/
theorem kvTableAndFormula : Obligations.KvTableAndFormula := fun v _ => ⟨kv_table v, kv_eq_min v⟩

/-! ## Descriptors as residues -/

/-- The form of R71 for `k < 8`, a run of `k` ones under a zero, read as the low bits of the byte (R75). -/
theorem kd_eq_iff_mod {b : Byte} {k : Nat} (hk : k < 8) : kd b = k ↔ b.toNat % 2 ^ (k + 1) = 2 ^ k - 1 := by
  have hbits : b.toNat % 2 ^ (k + 1) = 2 ^ k - 1 ↔ ∀ i < k + 1, b.getLsbD i = decide (i < k) := by
    constructor
    · intro h i hi
      have hbit := congrArg (Nat.testBit · i) h
      simpa [Nat.testBit_mod_two_pow, Nat.testBit_two_pow_sub_one, hi, BitVec.testBit_toNat] using hbit
    · intro h
      refine Nat.eq_of_testBit_eq fun i => ?_
      rw [Nat.testBit_mod_two_pow, Nat.testBit_two_pow_sub_one, BitVec.testBit_toNat]
      by_cases hi : i < k + 1
      · simp [hi, h i hi]
      · simp [hi, show ¬ i < k by omega]
  rw [kd_eq_iff hk.le, hbits]
  constructor
  · rintro ⟨hrun, hterm⟩ i hi
    rcases Nat.eq_or_lt_of_le (Nat.le_of_lt_succ hi) with rfl | hlt
    · simp [hterm hk]
    · simp [hrun i hlt, hlt]
  · intro h
    exact ⟨fun i hi => by simp [h i (by omega), hi], fun _ => by simp [h k (by omega)]⟩

/-- Settles O17: the residues from the form of a descriptor, and R78's counts by evaluating KD on the 256 bytes. -/
theorem everyByteIsOneDescriptor : Obligations.EveryByteIsOneDescriptor :=
  ⟨fun _ _ hk => kd_eq_iff_mod hk, rfl⟩

end Sys2Proof.Machine
end

section
/-! Requests and responses (`spec/30_encoding.md`, Part A; `spec/60_exceptions.md`): F of R26 code by code, and what it says of
the ports. -/

namespace Sys2Proof.Machine

/-! ## Decode and encode -/

theorem decode_of_op_reserved {r : Request} (h : 5 ≤ r.op.toNat) : decode r = .error (.reservedOp r.op) := by
  rcases decode_cases r with ⟨hop, -⟩ | ⟨hop, -⟩ | ⟨hop, -⟩ | ⟨hop, -⟩ | ⟨hop, -⟩ | ⟨-, hdec⟩
  iterate 5 exact absurd h (by rw [hop]; decide)
  exact hdec

/-- The three reserved codes are those from 5 on (R62). -/
theorem op_reserved_iff (op : OpCode) : (op = 0b101#3 ∨ op = 0b110#3 ∨ op = 0b111#3) ↔ 5 ≤ op.toNat := by
  revert op
  decide

/-- What each code selects fits its ports, and the request that carries it has the same code. -/
theorem decode_ok_spec {r : Request} {i : Instr} (h : decode r = .ok i) : WellFormed i ∧ (encode i).op = r.op := by
  rcases decode_cases r with ⟨hop, hdec⟩ | ⟨hop, hdec⟩ | ⟨hop, hdec⟩ | ⟨hop, hdec⟩ | ⟨hop, hdec⟩ | ⟨-, hdec⟩ <;>
    rw [h] at hdec <;> cases hdec
  case inr.inr.inr.inl => exact ⟨decide_eq_true r.avail.isLt, hop.symm⟩
  all_goals exact ⟨rfl, hop.symm⟩

/-- Every well-formed instruction is read back from the request that carries it. -/
theorem decode_encode {i : Instr} (h : WellFormed i) : decode (encode i) = .ok i := by
  cases i with
  | classifyValue v => exact Laws.ReadBack.classifyValue v h
  | classifyDesc b => exact Laws.ReadBack.classifyDesc b h
  | encode v => exact Laws.ReadBack.encode v h
  | decode u a => exact Laws.ReadBack.decode u a h
  | encodedLength v => exact Laws.ReadBack.encodedLength v h

/-- F of the request that carries an instruction is the instruction's response. -/
theorem responseF_encode {i : Instr} (h : WellFormed i) : responseF (encode i) = responseOf i :=
  responseF_of_ok (decode_encode h)

/-- Settles O10: the request that a selected instruction is encoded into decodes to it again, so both requests get that
instruction's response. -/
theorem decodeAndEncodeAgree : Obligations.DecodeAndEncodeAgree := by
  refine ⟨fun i hwf => decode_encode hwf, fun r i h => ?_⟩
  obtain ⟨hwf, hop⟩ := decode_ok_spec h
  exact ⟨hwf, hop, by rw [responseF_encode hwf, responseF_of_ok h]⟩

/-- Settles O8: the decoder evaluated at each code, for any operands. -/
theorem operationSelectTable : Obligations.OperationSelectTable := fun _ _ _ =>
  ⟨rfl, rfl, rfl, rfl, rfl, rfl, rfl, rfl⟩

/-- Settles O9: the eight words evaluated. -/
theorem tableWordsDecode : Obligations.TableWordsDecode := by
  unfold Obligations.TableWordsDecode
  decide

/-! ## The step of a presented request -/

/-- A cycle whose request selects an instruction runs it. -/
theorem step_of_decode_ok {s : State} {i : Instr} (hrst : s.inp.rst = false) (hreq : s.inp.reqValid = true)
    (h : decode s.inp.req = .ok i) : step s = exec i s := by
  simp [step, hrst, hreq, h]

/-- Settles O11. -/
theorem stepRunsTheDecodedInstruction : Obligations.StepRunsTheDecodedInstruction := fun _ _ hrst hreq h =>
  ⟨step_of_decode_ok hrst hreq h, (decode_ok_spec h).1⟩

theorem decode_of_decodeTableWord {nbits w : Nat} {i : Instr} (h : decodeTableWord nbits w = some i) :
    decode (requestOfWord nbits w) = .ok i := by
  unfold decodeTableWord at h
  split at h
  case h_1 j hj => rw [hj, Option.some.inj h]
  case h_2 => cases h

/-- Settles O12: `withFetchWord` presents the word's request with `rst` = 0, and writes no field but the input ports. -/
theorem placedWordRuns : Obligations.PlacedWordRuns := fun _ _ _ _ h =>
  ⟨step_of_decode_ok rfl rfl (decode_of_decodeTableWord h), rfl, rfl⟩

/-! ## F, code by code -/

section responseF
variable {r : Request}

theorem responseF_of_classifyValue (h : r.op = 0b000#3) : responseF r = classifyValueResponse r.valIn :=
  responseF_of_ok (decode_of_op_classifyValue h)

theorem responseF_of_classifyDesc (h : r.op = 0b001#3) : responseF r = classifyDescResponse (lane r.winIn 0) :=
  responseF_of_ok (decode_of_op_classifyDesc h)

theorem responseF_of_encode (h : r.op = 0b010#3) : responseF r = encodeResponse r.valIn :=
  responseF_of_ok (decode_of_op_encode h)

theorem responseF_of_decode (h : r.op = 0b011#3) : responseF r = decodeResponse r.winIn r.avail.toNat :=
  responseF_of_ok (decode_of_op_decode h)

theorem responseF_of_encodedLength (h : r.op = 0b100#3) : responseF r = encodedLengthResponse r.valIn :=
  responseF_of_ok (decode_of_op_encodedLength h)

theorem responseF_of_reserved (h : 5 ≤ r.op.toNat) : responseF r = failResponse .illegalOp :=
  responseF_of_error (decode_of_op_reserved h)

end responseF

/-- The three ways a request can end: ILLEGAL_OP for a reserved code, TRUNCATED_INPUT for a DECODE whose unit is cut
short, and OK for any other request. -/
theorem responseF_cases (r : Request) :
    (5 ≤ r.op.toNat ∧ responseF r = failResponse .illegalOp) ∨
    (r.op = 0b011#3 ∧ r.avail.toNat < kd (lane r.winIn 0) + 1 ∧ responseF r = failResponse .truncatedInput) ∨
    (r.op.toNat ≤ 4 ∧ (r.op = 0b011#3 → kd (lane r.winIn 0) + 1 ≤ r.avail.toNat) ∧
      (responseF r).status = Status.code .ok) := by
  rcases Nat.lt_or_ge r.op.toNat 5 with hdefined | hreserved
  case inr => exact .inl ⟨hreserved, responseF_of_reserved hreserved⟩
  by_cases hop : r.op = 0b011#3
  · rcases Nat.lt_or_ge r.avail.toNat (kd (lane r.winIn 0) + 1) with hshort | hwhole
    · exact .inr (.inl ⟨hop, hshort, by rw [responseF_of_decode hop, decodeResponse_of_truncated (dec_of_lt hshort)]⟩)
    · refine .inr (.inr ⟨Nat.le_of_lt_succ hdefined, fun _ => hwhole, ?_⟩)
      rw [responseF_of_decode hop, decodeResponse_of_ok (dec_of_le hwhole)]
      rfl
  · have hother : ∀ op : OpCode, op.toNat < 5 → op ≠ 0b011#3 →
        op = 0b000#3 ∨ op = 0b001#3 ∨ op = 0b010#3 ∨ op = 0b100#3 := by decide
    exact .inr (.inr ⟨Nat.le_of_lt_succ hdefined, fun h => absurd h hop,
      onlyDecodeCanFail r (hother r.op hdefined hop)⟩)

/-- No request gets INVALID_DESCRIPTOR (R172). -/
theorem responseF_status_ne_invalidDescriptor (r : Request) :
    (responseF r).status ≠ Status.code .invalidDescriptor := by
  rcases responseF_cases r with ⟨-, hF⟩ | ⟨-, -, hF⟩ | ⟨-, -, hstatus⟩
  · rw [hF]
    decide
  · rw [hF]
    decide
  · rw [hstatus]
    decide

/-- Settles O31: each of the three ways a request can end has its own code, and INVALID_DESCRIPTOR is none of them. -/
theorem statusCodesAndProducers : Obligations.StatusCodesAndProducers := by
  refine ⟨rfl, rfl, rfl, rfl, fun r => ?_⟩
  have hinvalid := responseF_status_ne_invalidDescriptor r
  rcases responseF_cases r with ⟨hop, hF⟩ | ⟨hop, -, hF⟩ | ⟨hop, -, hstatus⟩
  · rw [hF] at hinvalid ⊢
    exact ⟨fun h => absurd h (by decide), fun h => absurd h (by decide), hinvalid, fun _ => hop⟩
  · rw [hF] at hinvalid ⊢
    exact ⟨fun _ => by rw [hop]; decide, fun _ => hop, hinvalid, fun h => absurd h (by decide)⟩
  · rw [hstatus] at hinvalid ⊢
    exact ⟨fun _ => hop, fun h => absurd h (by decide), hinvalid, fun h => absurd h (by decide)⟩

/-- Settles O33: the checks in order; `avail` = 0 is short of every unit. -/
theorem statusFollowsTheOrderOfChecks : Obligations.StatusFollowsTheOrderOfChecks := by
  intro r
  simp only [op_reserved_iff]
  have hzero : r.avail = 0#4 → r.avail.toNat < kd (lane r.winIn 0) + 1 := fun h => by
    rw [h]
    exact Nat.succ_pos _
  rcases responseF_cases r with ⟨hop, hF⟩ | ⟨hop, hshort, hF⟩ | ⟨hop, hwhole, hstatus⟩
  · rw [hF, if_pos hop]
    rfl
  · rw [hF, if_neg (by rw [hop]; decide), if_pos (⟨hop, hshort⟩ : r.op = 0b011#3 ∧ _), ite_self]
    rfl
  · have hnot : ¬ (r.op = 0b011#3 ∧ r.avail.toNat < kd (lane r.winIn 0) + 1) := fun ⟨hdec, hshort⟩ =>
      Nat.not_lt.2 (hwhole hdec) hshort
    rw [hstatus, if_neg (Nat.not_le.2 (Nat.lt_succ_of_le hop)), if_neg (fun h => hnot ⟨h.1, hzero h.2⟩), if_neg hnot]

/-- Settles O34: a request that does not end OK gets `failResponse`, whose data ports are all 0. -/
theorem failedResponsesCarryNothing : Obligations.FailedResponsesCarryNothing := by
  intro r hfail
  rcases responseF_cases r with ⟨-, hF⟩ | ⟨-, -, hF⟩ | ⟨-, -, hstatus⟩
  · rw [hF]
    exact ⟨rfl, rfl, rfl, rfl⟩
  · rw [hF]
    exact ⟨rfl, rfl, rfl, rfl⟩
  · exact absurd hstatus hfail

/-- DECODE names `len_out` and `val_out` only (R148), with either answer of DEC. -/
theorem decodeResponse_unnamed (u : Bus) (a : Nat) :
    (decodeResponse u a).kOut = 0#4 ∧ (decodeResponse u a).encOut = 0#72 := by
  unfold decodeResponse
  split <;> exact ⟨rfl, rfl⟩

/-- Settles O35: every operation's response is `okResponse` but for the ports the operation names. -/
theorem unnamedOutputsAreZero : Obligations.UnnamedOutputsAreZero := by
  intro r
  refine ⟨?_, fun hop => ?_, fun hop => ?_, fun hop => ?_, fun hop => ?_⟩
  · rintro (hop | hop)
    · rw [responseF_of_classifyValue hop]
      exact ⟨rfl, rfl, rfl⟩
    · rw [responseF_of_classifyDesc hop]
      exact ⟨rfl, rfl, rfl⟩
  · rw [responseF_of_encode hop]
    exact ⟨rfl, rfl⟩
  · rw [responseF_of_decode hop]
    exact decodeResponse_unnamed _ _
  · rw [responseF_of_encodedLength hop]
    exact ⟨rfl, rfl, rfl⟩
  · rw [responseF_of_reserved hop]
    exact ⟨rfl, rfl, rfl, rfl⟩

/-- DEC reads no lane at or past its count (R152). -/
theorem dec_congr {u u' : Bus} {a : Nat} (h : ∀ i < 9, i < a → lane u i = lane u' i) : dec u a = dec u' a := by
  obtain ⟨hempty, hshort, hwhole⟩ := decDependsOnItsUnitAlone
  rcases Nat.eq_zero_or_pos a with rfl | hpos
  · exact hempty u u'
  · have hdesc : lane u 0 = lane u' 0 := h 0 (by decide) hpos
    rcases Nat.lt_or_ge a (kd (lane u 0) + 1) with hlt | hle
    · exact hshort u u' a hdesc hlt
    · have hunit : kd (lane u 0) + 1 ≤ 9 := Nat.succ_le_succ (kd_le _)
      have hlanes : ∀ i < kd (lane u 0) + 1, lane u i = lane u' i := fun i hi =>
        h i (lt_of_lt_of_le hi hunit) (lt_of_lt_of_le hi hle)
      rw [dec_of_le hle, hwhole u u' a a _ _ (dec_of_le hle) hlanes hle]

/-- Settles O36: each operation's response is written with the ports it uses alone. -/
theorem unusedPortsAreIgnored : Obligations.UnusedPortsAreIgnored := by
  intro r q hrq
  refine ⟨?_, fun hop hdesc => ?_, fun hop havail hlanes => ?_, fun hop => ?_⟩
  · rintro (hop | hop | hop) hval
    · rw [responseF_of_classifyValue hop, responseF_of_classifyValue (hrq ▸ hop), hval]
    · rw [responseF_of_encode hop, responseF_of_encode (hrq ▸ hop), hval]
    · rw [responseF_of_encodedLength hop, responseF_of_encodedLength (hrq ▸ hop), hval]
  · rw [responseF_of_classifyDesc hop, responseF_of_classifyDesc (hrq ▸ hop), hdesc]
  · rw [responseF_of_decode hop, responseF_of_decode (hrq ▸ hop), ← havail, decodeResponse, decodeResponse,
      dec_congr hlanes]
  · rw [responseF_of_reserved hop, responseF_of_reserved (hrq ▸ hop)]

/-! ## The internal signals -/

/-- The low lanes of a packed bus are the bytes that were packed (R25). -/
theorem lanes_packLanes {bytes : List Byte} (h : bytes.length ≤ 9) : lanes (packLanes bytes) bytes.length = bytes := by
  refine List.ext_getElem? fun i => ?_
  rw [lanes, List.getElem?_map]
  rcases Nat.lt_or_ge i bytes.length with hlt | hge
  · rw [List.getElem?_range hlt, getElem?_eq_lane_packLanes hlt (lt_of_lt_of_le hlt h), Option.map_some]
  · rw [List.getElem?_eq_none hge, List.getElem?_eq_none (by simpa using hge), Option.map_none]

/-- Settles O37: KV, KD and KD + 1 are 9 at most, the compositor's value has 64 bits at most, and a unit fits nine lanes. -/
theorem signalsCarryTheirValues : Obligations.SignalsCarryTheirValues := by
  intro r
  have hkd := kd_le (lane r.winIn 0)
  have hkdPort : (signalKd r).toNat = kd (lane r.winIn 0) := count_toNat (by omega)
  refine ⟨count_toNat (Nat.le_succ_of_le (kv_le _)), hkdPort, ?_, ?_, ?_⟩
  · rw [signalN, BitVec.toNat_add, hkdPort, BitVec.toNat_ofNat]
    omega
  · rw [signalPayload, BitVec.toNat_ofNat, Nat.mod_eq_of_lt (composite_lt_two_pow_64 _)]
  · rw [signalUnit, ← enc_length, lanes_packLanes (by rw [enc_length]; exact encLen_le _)]

end Sys2Proof.Machine
end

section
/-! The clock cycle (`spec/70_reset_and_hazards.md`): the flight as a delay line, what every run keeps, and the round trip of a
value through the ports. -/

namespace Sys2Proof.Machine

/-! ## One cycle -/

/-- What the output ports present in a cycle: the request and its response, or nothing. -/
def State.presented (t : State) : Option InFlight :=
  match t.answered with
  | some r => if t.respValid then some { req := r, resp := t.resp } else none
  | none => none

theorem State.presented_eq_some {t : State} {f : InFlight} (h : t.presented = some f) :
    t.respValid = true ∧ t.resp = f.resp ∧ t.answered = some f.req := by
  unfold State.presented at h
  split at h
  case h_1 r hr =>
    split at h
    case isTrue hvalid =>
      cases h
      exact ⟨hvalid, rfl, hr⟩
    case isFalse => cases h
  case h_2 => cases h

/-- Everything one cycle without reset does: `e` joins the flight at its end, the slot at its head falls due, and the output
ports present it. -/
theorem State.advance_spec (s : State) (e : Option InFlight) :
    ∃ due, s.pipe ++ [e] = due :: (s.advance e).pipe ∧ (s.advance e).presented = due ∧
      (s.advance e).respValid = due.isSome ∧ (s.advance e).answered = due.map InFlight.req ∧
      ∀ f, due = some f → (s.advance e).resp = f.resp ∧ (s.advance e).draws = s.draws := by
  obtain ⟨due, rest, hflight, hadvance⟩ := s.advance_eq e
  rw [hadvance]
  refine ⟨due, hflight, ?_, s.emit_respValid due, s.emit_answered due, ?_⟩
  · cases due <;> rfl
  · rintro f rfl
    exact ⟨rfl, rfl⟩

/-- Every cycle has a next state, in which the input ports, BUF and VLU_LATENCY are as before. -/
theorem step_spec (s : State) :
    ∃ t, step s = .next t ∧ t.inp = s.inp ∧ t.buf = s.buf ∧ t.pipe.length = s.pipe.length := by
  rcases step_cases s with ⟨-, hstep⟩ | ⟨-, hstep⟩
  · exact ⟨_, hstep, rfl, rfl, List.length_replicate⟩
  · exact ⟨_, hstep, s.advance_inp _, s.advance_buf _, s.advance_length _⟩

/-- Settles O40. -/
theorem everyCycleHasANextState : Obligations.EveryCycleHasANextState := by
  intro s
  obtain ⟨t, hstep, hinp, hbuf, -⟩ := step_spec s
  exact ⟨t, hstep, hinp, hbuf⟩

/-- Settles O38: exec accepts the request with the instruction's response, and one slot moves through the flight. -/
theorem instructionFrame : Obligations.InstructionFrame := by
  intro i s t h
  rw [exec_eq, Host.Outcome.next.injEq] at h
  subst h
  have hbuf : (s.accept (responseOf i)).buf = s.buf := s.advance_buf _
  obtain ⟨due, hflight, -, hvalid, hanswered, hdue⟩ := s.advance_spec (some { req := s.inp.req, resp := responseOf i })
  exact ⟨s.advance_inp _, hbuf, fun a => by rw [hbuf], s.advance_length _, responseOf i, due,
    fun hwf => (responseF_encode hwf).symm, hflight, hvalid, hanswered, hdue⟩

theorem slotOf_of_reqValid {d : Inputs} (h : d.reqValid = true) :
    slotOf d = some { req := d.req, resp := responseF d.req } :=
  if_pos h

/-- Settles O39: with no flight the slot on the ports falls due in its own cycle. -/
theorem combinationalCycleAnswersAtOnce : Obligations.CombinationalCycleAnswersAtOnce := by
  intro s hflight hrst hreq
  rw [step_of_running hrst, slotOf_of_reqValid hreq]
  exact congrArg Host.Outcome.next (State.accept_combinational hflight _)

/-- Settles O7: a reserved code is accepted with the ILLEGAL_OP response, which has 0 on every data port. -/
theorem reservedCodesAnswerIllegalOp : Obligations.ReservedCodesAnswerIllegalOp := by
  intro s hrst hreq hop
  have hF := responseF_of_reserved ((op_reserved_iff _).1 hop)
  refine ⟨_, step_of_running hrst, ?_, s.advance_inp _, s.advance_buf _⟩
  rw [slotOf_of_reqValid hreq, hF]
  rfl

/-- Settles O41: in both cases the slot at the head of the flight, the presented one joined to it, is empty. -/
theorem cycleWithoutResponseIsSilent : Obligations.CycleWithoutResponseIsSilent := by
  intro s hrst hempty
  obtain ⟨due, hflight, -, hvalid, hanswered, -⟩ := s.advance_spec (slotOf s.inp)
  have hdue : due = none := by
    rcases hempty with ⟨rest, hpipe⟩ | ⟨hpipe, hreq⟩
    · rw [hpipe] at hflight
      exact (List.cons.inj hflight).1.symm
    · rw [hpipe, slotOf, hreq] at hflight
      exact (List.cons.inj hflight).1.symm
  rw [hdue] at hvalid hanswered
  exact ⟨_, step_of_running hrst, hvalid, hanswered, s.advance_inp _, s.advance_buf _⟩

/-! ## Runs -/

section runs
variable {s t : State} {d : Inputs}

theorem runDrives_cons (h : step (s.drive d) = .next t) (ds : List Inputs) : runDrives (d :: ds) s = runDrives ds t := by
  rw [runDrives, h]

theorem responsesOf_cons (h : step (s.drive d) = .next t) (ds : List Inputs) :
    responsesOf (d :: ds) s = t.presented :: responsesOf ds t := by
  rw [responsesOf, h]
  rfl

/-- What driving the ports and every step keep, every run keeps. -/
theorem runDrives_preserves {P : State → Prop} (hdrive : ∀ s d, P s → P (s.drive d))
    (hstep : ∀ s t, P s → step s = .next t → P t) {ds : List Inputs} (hs : P s) (h : runDrives ds s = .next t) : P t := by
  induction ds generalizing s with
  | nil =>
    cases h
    exact hs
  | cons d ds ih =>
    obtain ⟨u, hu, -⟩ := step_spec (s.drive d)
    rw [runDrives_cons hu] at h
    exact ih (hstep _ u (hdrive s d hs) hu) h

end runs

/-- Settles O42: the flight's length and BUF are untouched by a drive and kept by a step. -/
theorem everyRunKeepsTheLatency : Obligations.EveryRunKeepsTheLatency := by
  intro ds s t h
  refine runDrives_preserves (P := fun x => x.pipe.length = s.pipe.length ∧ x.buf = s.buf) (fun _ _ hx => hx) ?_
    ⟨rfl, rfl⟩ h
  rintro x y ⟨hlen, hbuf⟩ hxy
  obtain ⟨z, hz, -, hzbuf, hzlen⟩ := step_spec x
  rw [hxy, Host.Outcome.next.injEq] at hz
  subst hz
  exact ⟨hzlen.trans hlen, hzbuf.trans hbuf⟩

/-! ## The delay line -/

/-- Settles O44, by induction on the drives: each cycle presents the head of the flight joined with the slots to come, and
leaves the rest of it. -/
theorem coreIsADelayedFunction : Obligations.CoreIsADelayedFunction := by
  intro ds
  induction ds with
  | nil => exact fun s _ => by simp [responsesOf]
  | cons d ds ih =>
    intro s hrun
    obtain ⟨due, hflight, hpresented, -⟩ := (s.drive d).advance_spec (slotOf d)
    have hline : s.pipe ++ (d :: ds).map slotOf = due :: (((s.drive d).advance (slotOf d)).pipe ++ ds.map slotOf) := by
      rw [List.map_cons, List.append_cons]
      exact congrArg (· ++ ds.map slotOf) hflight
    rw [responsesOf_cons (step_of_running (hrun d List.mem_cons_self)), State.drive_inp,
      ih _ fun e he => hrun e (List.mem_cons_of_mem d he), hpresented, hline, List.length_cons, List.take_succ_cons]

/-- A run of one or more cycles without reset ends with the slot on the output ports that stood as many places behind the
head of the flight as cycles came after the first. -/
theorem runDrives_presented (d : Inputs) (ds : List Inputs) (s : State) (hrun : ∀ e ∈ d :: ds, e.rst = false) :
    ∃ t, runDrives (d :: ds) s = .next t ∧ (s.pipe ++ (d :: ds).map slotOf)[ds.length]? = some t.presented := by
  induction ds generalizing d s with
  | nil =>
    obtain ⟨due, hflight, hpresented, -⟩ := (s.drive d).advance_spec (slotOf d)
    refine ⟨_, runDrives_cons (step_of_running (hrun d List.mem_cons_self)) [], ?_⟩
    rw [State.drive_inp, hpresented]
    exact congrArg (·[0]?) hflight
  | cons e ds ih =>
    obtain ⟨due, hflight, -⟩ := (s.drive d).advance_spec (slotOf d)
    obtain ⟨t, ht, hslot⟩ := ih e ((s.drive d).advance (slotOf d)) fun c hc => hrun c (List.mem_cons_of_mem d hc)
    refine ⟨t, (runDrives_cons (step_of_running (hrun d List.mem_cons_self)) _).trans ht, ?_⟩
    rw [State.drive_pipe] at hflight
    rw [List.map_cons, List.append_cons, hflight, List.cons_append, List.length_cons, List.getElem?_cons_succ, hslot]

/-- Settles O43: as many places behind the head as the flight is long stands the request presented in the first cycle. -/
theorem acceptedRequestIsAnswered : Obligations.AcceptedRequestIsAnswered := by
  intro s d ds hrst hreq hlen hrun
  obtain ⟨t, ht, hslot⟩ := runDrives_presented d ds s (List.forall_mem_cons.2 ⟨hrst, hrun⟩)
  rw [hlen, List.getElem?_append_right le_rfl, Nat.sub_self, List.map_cons, List.getElem?_cons_zero,
    slotOf_of_reqValid hreq] at hslot
  exact ⟨t, ht, State.presented_eq_some (Option.some.inj hslot).symm⟩

/-- Settles O46: both runs end with F of the one request. -/
theorem responsesDoNotDependOnHistory : Obligations.ResponsesDoNotDependOnHistory := by
  intro s s' d d' ds ds' hrst hreq hrst' hreq' hsame hlen hlen' hrun hrun'
  obtain ⟨t, ht, hvalid, hresp, -⟩ := acceptedRequestIsAnswered s d ds hrst hreq hlen hrun
  obtain ⟨t', ht', hvalid', hresp', -⟩ := acceptedRequestIsAnswered s' d' ds' hrst' hreq' hlen' hrun'
  exact ⟨t, t', ht, ht', hvalid, hvalid', by rw [hresp, hresp', hsame]⟩

/-- Settles O45: a reset cycle leaves an empty flight of the same length, from which the cycles after it are the delay line. -/
theorem resetDiscardsRequestsInFlight : Obligations.ResetDiscardsRequestsInFlight := by
  intro s d ds hrst hrun
  have hstep : step (s.drive d) = .next (s.drive d).resetCycle := step_of_reset hrst
  refine ⟨⟨_, hstep, rfl, rfl⟩, ?_⟩
  rw [responsesOf_cons hstep, coreIsADelayedFunction ds _ hrun]
  rfl

/-! ## Good states -/

/-- The slot that a cycle puts into the flight holds F of its request. -/
theorem slotOf_resp {d : Inputs} {f : InFlight} (h : slotOf d = some f) : f.resp = responseF f.req := by
  unfold slotOf at h
  split at h <;> cases h
  rfl

/-- Outputs that present a slot holding F of its request, or nothing, are good. -/
theorem outputsGood_of_due {t : State} {due : Option InFlight} (hvalid : t.respValid = due.isSome)
    (hanswered : t.answered = due.map InFlight.req) (hresp : ∀ f, due = some f → t.resp = responseF f.req) :
    outputsGood t := by
  unfold outputsGood
  rw [hanswered]
  cases due with
  | none => exact hvalid
  | some f => exact ⟨hvalid, hresp f rfl⟩

/-- A cycle without reset keeps good states good: the slot that falls due stood in the flight or on the ports. -/
theorem advance_goodState {s : State} (h : goodState s) : goodState (s.advance (slotOf s.inp)) := by
  obtain ⟨-, hgood, hwf⟩ := h
  obtain ⟨due, hflight, -, hvalid, hanswered, hdue⟩ := s.advance_spec (slotOf s.inp)
  have hslots : ∀ f, some f ∈ due :: (s.advance (slotOf s.inp)).pipe → f.resp = responseF f.req := fun f hf => by
    rw [← hflight, List.mem_append, List.mem_singleton] at hf
    exact hf.elim (hgood f) fun hslot => slotOf_resp hslot.symm
  refine ⟨outputsGood_of_due hvalid hanswered fun f hf => ?_, fun f hf => hslots f (List.mem_cons_of_mem _ hf), ?_⟩
  · rw [(hdue f hf).1]
    exact hslots f (hf ▸ List.mem_cons_self)
  · rwa [State.advance_buf]

/-- A cycle of reset leaves nothing on the output ports and nothing in flight. -/
theorem resetCycle_goodState {s : State} (hwf : s.buf.wf) : goodState s.resetCycle :=
  ⟨rfl, fun f hf => absurd (List.eq_of_mem_replicate hf) (Option.some_ne_none f), hwf⟩

/-- Settles O47: a step is a cycle of reset or an advance of the flight. -/
theorem everyStepKeepsGoodStates : Obligations.EveryStepKeepsGoodStates := by
  intro s t hgood h
  rcases step_cases s with ⟨-, hstep⟩ | ⟨-, hstep⟩ <;> rw [hstep, Host.Outcome.next.injEq] at h <;> subst h
  · exact resetCycle_goodState hgood.2.2
  · exact advance_goodState hgood

/-- Settles O48: right after reset the output ports present nothing and every slot of the flight is empty. -/
theorem resetStateIsGood : Obligations.ResetStateIsGood := fun latency =>
  ⟨⟨rfl, fun f hf => absurd (List.eq_of_mem_replicate hf) (Option.some_ne_none f), State.resetAt_wf latency⟩, rfl, rfl⟩

/-- The ports of a good state with `resp_valid` = 1 carry F of some request. -/
theorem outputsGood_resp {t : State} (h : outputsGood t) (hvalid : t.respValid = true) : ∃ r, t.resp = responseF r := by
  unfold outputsGood at h
  split at h
  case h_1 r _ => exact ⟨r, h.2⟩
  case h_2 =>
    rw [hvalid] at h
    cases h

/-- Settles O49: a run ends in a good state, whose response is F of a request. -/
theorem invalidDescriptorIsNeverProduced : Obligations.InvalidDescriptorIsNeverProduced := by
  intro ds s t hgood h hvalid
  have hend : goodState t := runDrives_preserves (fun _ _ hs => hs) everyStepKeepsGoodStates hgood h
  obtain ⟨r, hr⟩ := outputsGood_resp hend.1 hvalid
  rw [hr]
  exact responseF_status_ne_invalidDescriptor r

/-! ## A value through the ports -/

/-- With VLU_LATENCY = 0 a presented request is answered at once, and the flight stays empty. -/
theorem step_drive_combinational {s : State} (h : s.pipe = []) (r : Request) :
    ∃ t, step (s.drive ⟨false, true, r⟩) = .next t ∧ t.pipe = [] ∧ t.respValid = true ∧ t.resp = responseF r :=
  ⟨_, combinationalCycleAnswersAtOnce (s.drive ⟨false, true, r⟩) h rfl rfl, h, rfl, rfl⟩

/-- Settles O50: ENCODE's ports carry the packed unit and LEN, from which DEC reads the value (R150). -/
theorem encodeThenDecodeReturnsTheValue : Obligations.EncodeThenDecodeReturnsTheValue := by
  intro s v x w a hlatency
  obtain ⟨t, ht, hflight, -, hresp⟩ := step_drive_combinational hlatency ⟨0b010#3, v, w, a⟩
  obtain ⟨t', ht', -, hvalid', hresp'⟩ := step_drive_combinational hflight ⟨0b011#3, x, t.resp.encOut, t.resp.lenOut⟩
  have hencode : t.resp = encodeResponse v := hresp.trans (responseF_of_encode rfl)
  have hlen : t.resp.lenOut.toNat = encLen v.toNat := by
    rw [hencode, encodeResponse_eq]
    exact count_toNat (encLen_le _)
  have henc : t.resp.encOut = packLanes (enc v.toNat) := by rw [hencode, encodeResponse]
  have hdec : dec t.resp.encOut t.resp.lenOut.toNat = .ok v.toNat (encLen v.toNat) := by
    rw [henc, hlen]
    exact dec_packLanes_enc v le_rfl
  refine ⟨t, t', ht, ht', hvalid', ?_, hlen⟩
  rw [hresp', responseF_of_decode rfl, decodeResponse_of_ok hdec, ← hlen, BitVec.ofNat_toNat, BitVec.ofNat_toNat,
    BitVec.setWidth_eq, BitVec.setWidth_eq]
  rfl

/-! ## Systems -/

theorem systemStep_cons {s t : State} {ss ts : List State} (h : step s = .next t) (hs : systemStep ss = .next ts) :
    systemStep (s :: ss) = .next (t :: ts) := by
  rw [systemStep, h, hs]

/-- Settles O51, by induction on the list of COREs. -/
theorem instancesStepOnTheirOwn : Obligations.InstancesStepOnTheirOwn := by
  intro ss
  induction ss with
  | nil => exact ⟨[], rfl, rfl, fun i s t hs => by simp at hs⟩
  | cons s ss ih =>
    obtain ⟨ts, hts, hlen, heach⟩ := ih
    obtain ⟨t, ht, -⟩ := step_spec s
    refine ⟨t :: ts, systemStep_cons ht hts, congrArg Nat.succ hlen, fun i x y hx hy => ?_⟩
    cases i with
    | zero =>
      obtain rfl := Option.some.inj hx
      obtain rfl := Option.some.inj hy
      exact ht
    | succ i => exact heach i x y hx hy

end Sys2Proof.Machine
end

section
/-! BUF and the requester (`spec/20_memory.md`): reads and writes, the window fill with and without a race, DECODE_AT, and
the read loop of Program 1. -/

namespace Sys2Proof.Machine

/-! ## Reads and writes -/

theorem Memory.read_of_le {m : Memory} {a : Nat} (h : m.len ≤ a) : m.read a = .error (.noSuchByte a) :=
  if_neg (Nat.not_lt.2 h)

theorem Memory.read_of_lt {m : Memory} {a : Nat} (h : a < m.len) : m.read a = .ok (cellAt a m.cells) := if_pos h

/-- A read depends on whether BUF has the index and on the byte listed there. -/
theorem Memory.read_congr {m m' : Memory} {a : Nat} (hlen : a < m.len ↔ a < m'.len)
    (hcell : cellAt a m.cells = cellAt a m'.cells) : m.read a = m'.read a := by
  unfold Memory.read
  simp only [hlen, hcell]

/-- Settles O52: a write inside BUF or at its end replaces one byte, and makes no other index part of BUF. -/
theorem writeThenRead : Obligations.WriteThenRead := by
  refine ⟨fun m a h => Memory.read_of_le h, fun m a h => ⟨_, Memory.read_of_lt h⟩,
    fun m a b h => if_neg (Nat.not_le.2 h), fun m a b hwf ha => ?_⟩
  refine ⟨{ len := max m.len (a + 1), cells := setCell a b m.cells }, if_pos ha, ?_, fun x hx => ?_⟩
  · exact Memory.read_ok.2 ⟨lt_max_of_lt_right a.lt_succ_self, cellAt_setCell_self hwf.1⟩
  · have hlen : x < max m.len (a + 1) ↔ x < m.len := by omega
    exact Memory.read_congr hlen (cellAt_setCell_other hx)

/-- In the canonical form the list holds exactly the bytes of BUF that are not `0x00`. -/
theorem Memory.mem_cells_iff {m : Memory} (h : m.wf) (c : Host.Cell) :
    c ∈ m.cells ↔ m.read c.1 = .ok c.2 ∧ c.2 ≠ unlistedByte := by
  obtain ⟨hsorted, hlisted⟩ := h
  rw [Memory.read_ok]
  constructor
  · intro hc
    obtain ⟨hlt, hne⟩ := hlisted c hc
    exact ⟨⟨hlt, cellAt_of_mem hsorted hc⟩, hne⟩
  · rintro ⟨⟨-, hcell⟩, hne⟩
    have hmem := mem_of_cellAt_ne (hcell ▸ hne)
    rwa [hcell] at hmem

theorem nodup_of_sorted {l : List Host.Cell} (h : l.Pairwise fun c d => c.1 < d.1) : l.Nodup :=
  h.imp fun hlt heq => Nat.ne_of_lt hlt (congrArg Prod.fst heq)

/-- Settles O53: the reads fix which cells are listed, and rising addresses fix their order. -/
theorem canonicalBuffersAreEqual : Obligations.CanonicalBuffersAreEqual := by
  rintro ⟨len, cells⟩ ⟨len', cells'⟩ hwf hwf' hlen hread
  have hsame : ∀ c, c ∈ cells ↔ c ∈ cells' := fun c => by
    have hmem := Memory.mem_cells_iff hwf c
    rw [hread] at hmem
    exact hmem.trans (Memory.mem_cells_iff hwf' c).symm
  have hperm : cells.Perm cells' :=
    (List.perm_ext_iff_of_nodup (nodup_of_sorted hwf.1) (nodup_of_sorted hwf'.1)).2 hsame
  have hcells : cells = cells' :=
    hperm.eq_of_pairwise (fun c d _ _ hcd hdc => absurd hcd (Nat.lt_asymm hdc)) hwf.1 hwf'.1
  rw [hcells, show len = len' from hlen]

/-! ## The window fill -/

/-- The values a byte held during a fill: BUF's byte and those written to it. -/
theorem mem_heldDuring {before b : Byte} {race : List Host.Cell} {addr : Nat} (h : b ∈ heldDuring before race addr) :
    b = before ∨ (addr, b) ∈ race := by
  rcases List.mem_cons.1 h with heq | hwritten
  · exact .inl heq
  · obtain ⟨⟨x, y⟩, hc, rfl⟩ := List.mem_map.1 hwritten
    obtain ⟨hrace, haddr⟩ := List.mem_filter.1 hc
    obtain rfl : x = addr := of_decide_eq_true haddr
    exact .inr hrace

/-- Everything a fill can do, in the requester's terms: the lanes below `avail` hold bytes held during the fill, and only
`win_in`, `avail`, the draw counter and (by the race) BUF are written. -/
theorem State.fillWindow_ok (s : State) (offset : Nat) (race : List Host.Cell) :
    ∃ t, s.fillWindow offset race = .ok t ∧ t.inp.req.avail.toNat = availAt s.buf.len offset ∧
      (∀ i < t.inp.req.avail.toNat,
        s.buf.read (offset + i) = .ok (lane t.inp.req.winIn i) ∨ (offset + i, lane t.inp.req.winIn i) ∈ race) ∧
      t = { s with
        inp := { s.inp with req := { s.inp.req with winIn := t.inp.req.winIn, avail := t.inp.req.avail } },
        buf := s.buf.afterRace race, draws := s.draws + 1 } := by
  obtain ⟨bytes, -, hfill, hheld⟩ := s.fillWindow_spec offset race
  refine ⟨_, hfill, availAt_toNat _ _, fun i hi => ?_, rfl⟩
  rw [availAt_toNat] at hi
  have hlane : lane (packLanes bytes) i = bytes.getD i 0#8 := lane_packLanes bytes i (lt_of_lt_of_le hi (availAt_le _ _))
  rw [hlane, Memory.read_of_lt (add_lt_of_lt_availAt hi)]
  exact (mem_heldDuring (hheld i hi)).imp (fun heq => congrArg _ heq.symm) id

/-- Settles O54: with no race a byte held one value only. -/
theorem windowFillCopiesTheBuffer : Obligations.WindowFillCopiesTheBuffer := by
  intro s offset
  obtain ⟨t, hfill, havail, hlanes, hframe⟩ := s.fillWindow_ok offset []
  refine ⟨t, hfill, havail, fun i hi => (hlanes i hi).resolve_right List.not_mem_nil, ?_⟩
  rw [hframe]
  exact ⟨rfl, rfl, rfl, rfl, rfl, rfl⟩

/-! ## The race -/

/-- Writes to other indices leave a byte as it was. -/
theorem foldl_write_of_forall_ne {race : List Host.Cell} {a : Nat} (h : ∀ c ∈ race, c.1 ≠ a) (b : Byte) :
    race.foldl (fun b c => if c.1 = a then c.2 else b) b = b := by
  induction race with
  | nil => rfl
  | cons c rest ih =>
    rw [List.foldl_cons, if_neg (h c List.mem_cons_self)]
    exact ih fun d hd => h d (List.mem_cons_of_mem c hd)

section afterRace
variable {m : Memory} {race : List Host.Cell} {a : Nat}

/-- A byte that the race does not write reads as before. -/
theorem Memory.afterRace_read_of_forall_ne (hm : m.wf) (ha : a < m.len) (h : ∀ c ∈ race, c.1 ≠ a) :
    (m.afterRace race).read a = m.read a :=
  Memory.read_congr (by rw [Memory.afterRace_len]) (by rw [Memory.afterRace_cellAt hm ha, foldl_write_of_forall_ne h])

/-- The last write of the race to a byte stands. -/
theorem Memory.afterRace_read_last (hm : m.wf) (ha : a < m.len) {before after : List Host.Cell} {b : Byte}
    (hrace : race = before ++ (a, b) :: after) (hlast : ∀ c ∈ after, c.1 ≠ a) : (m.afterRace race).read a = .ok b := by
  refine Memory.read_ok.2 ⟨by rwa [Memory.afterRace_len], ?_⟩
  rw [Memory.afterRace_cellAt hm ha, hrace, List.foldl_append, List.foldl_cons, if_pos rfl,
    foldl_write_of_forall_ne hlast]

end afterRace

/-- Settles O55: the fill as without a race but for the bytes held, and BUF as the race leaves it. -/
theorem racingFillReadsHeldBytes : Obligations.RacingFillReadsHeldBytes := by
  intro s offset race
  obtain ⟨t, hfill, havail, hlanes, hframe⟩ := s.fillWindow_ok offset race
  have hbuf : t.buf = s.buf.afterRace race := by rw [hframe]
  refine ⟨t, hfill, havail, hlanes, by rw [hframe], by rw [hframe], by rw [hframe], by rw [hframe], by rw [hframe], ?_⟩
  rw [hbuf]
  refine ⟨Memory.afterRace_len, fun a ha => ?_, fun hwf a ha => ⟨?_, fun before after b => ?_⟩⟩
  · rw [Memory.read_of_le ha, Memory.read_of_le (by rwa [Memory.afterRace_len])]
  · exact Memory.afterRace_read_of_forall_ne hwf ha
  · exact Memory.afterRace_read_last hwf ha

/-! ## DECODE_AT -/

/-- A read with BUF stable is DECODE of a window whose valid lanes hold BUF's bytes. -/
theorem readAt_eq (s : State) (offset : Nat) :
    ∃ u, readAt s offset = .ok (decodeResponse u (availAt s.buf.len offset)) ∧
      ∀ i < availAt s.buf.len offset, s.buf.read (offset + i) = .ok (lane u i) := by
  obtain ⟨t, hfill, havail, hlanes, -⟩ := windowFillCopiesTheBuffer s offset
  change _ = availAt s.buf.len offset at havail
  refine ⟨t.inp.req.winIn, ?_, fun i hi => hlanes i (havail.symm ▸ hi)⟩
  rw [readAt, State.decodeAt, hfill]
  exact congrArg Except.ok ((responseF_of_decode rfl).trans (by rw [State.drive_inp, havail]))

theorem availAt_of_lt {len offset : Nat} (h : offset < len) : availAt len offset = min 9 (len - offset) := if_pos h

theorem availAt_of_le {len offset : Nat} (h : len ≤ offset) : availAt len offset = 0 := if_neg (Nat.not_lt.2 h)

/-- Settles O56: `avail` covers a unit of nine bytes or fewer exactly when BUF does, and then the window's lanes and the
given unit's are the same bytes of BUF. -/
theorem decodeAtReadsTheUnit : Obligations.DecodeAtReadsTheUnit := by
  intro s offset
  obtain ⟨w, hread, hlanes⟩ := readAt_eq s offset
  rw [hread]
  refine ⟨fun hend => ?_, fun d hd => ?_⟩
  · rw [availAt_of_le hend, decodeResponse_of_truncated (dec_of_lt (Nat.succ_pos _))]
  obtain ⟨hlt, -⟩ := Memory.read_ok.1 hd
  rw [availAt_of_lt hlt] at hlanes ⊢
  have hdesc : lane w 0 = d := Except.ok.inj ((hlanes 0 (by omega)).symm.trans hd)
  have hkd := kd_le d
  refine ⟨fun hshort => ?_, fun u hwhole hunit => ?_⟩
  · rw [decodeResponse_of_truncated (dec_of_lt (by rw [hdesc]; omega))]
  · have hsame : ∀ i < kd d + 1, lane w i = lane u i := fun i hi =>
      Except.ok.inj ((hlanes i (by omega)).symm.trans (hunit i hi))
    rw [decodeResponse_of_ok (dec_of_le (by rw [hdesc]; omega)), hdesc, composite_congr hkd hsame]

/-! ## The read loop -/

theorem Memory.ofBytes_len (bytes : List Byte) : (Memory.ofBytes bytes).len = bytes.length := rfl

theorem Memory.ofBytes_read {bytes : List Byte} {i : Nat} (h : i < bytes.length) :
    (Memory.ofBytes bytes).read i = .ok (bytes.getD i 0#8) :=
  Memory.read_ok.2 ⟨h, Memory.ofBytes_cellAt bytes i⟩

/-- A read at a canonical unit inside BUF answers its value and LEN. -/
theorem readAt_enc {s : State} {v : Value} {before after : List Byte}
    (h : s.buf = Memory.ofBytes (before ++ (enc v.toNat ++ after))) :
    readAt s before.length =
      .ok { okResponse with lenOut := BitVec.ofNat 4 (encLen v.toNat), valOut := v } := by
  have hlen : s.buf.len = before.length + (encLen v.toNat + after.length) := by
    rw [h, Memory.ofBytes_len, List.length_append, List.length_append, enc_length]
  have hbytes : ∀ i < encLen v.toNat, s.buf.read (before.length + i) = .ok (lane (packLanes (enc v.toNat)) i) := by
    intro i hi
    have hin : before.length + i < (before ++ (enc v.toNat ++ after)).length := by
      simp only [List.length_append, enc_length]
      omega
    rw [h, Memory.ofBytes_read hin, lane_packLanes _ i (lt_of_lt_of_le hi (encLen_le _)),
      List.getD_append_right _ _ _ _ (Nat.le_add_right _ _), Nat.add_sub_cancel_left,
      List.getD_append _ _ _ _ (by rwa [enc_length])]
  obtain ⟨-, hunit⟩ := decodeAtReadsTheUnit s before.length
  obtain ⟨-, hread⟩ := hunit _ (hbytes 0 (encLen_pos _))
  obtain ⟨-, hvalue, -⟩ := dec_eq_ok_iff.1 (dec_packLanes_enc v le_rfl)
  rw [kd_lane_packLanes_enc] at hread hvalue
  rw [hread (packLanes (enc v.toNat)) (by rw [hlen, encLen]; omega) hbytes, hvalue, BitVec.ofNat_toNat, BitVec.setWidth_eq]
  rfl

/-- One turn of the loop: an OK response inside BUF is recorded and skipped over. -/
theorem readLoop_succ {s : State} {offset fuel last : Nat} {r : Response} {vs : List Value} (hin : offset < s.buf.len)
    (hread : readAt s offset = .ok r) (hok : r.status = Status.code .ok)
    (hrest : readLoop s (offset + r.lenOut.toNat) fuel = some (vs, last)) :
    readLoop s offset (fuel + 1) = some (r.valOut :: vs, last) := by
  simp only [readLoop, if_pos hin, hread, if_pos hok, hrest]

/-- The loop started behind any bytes reads the units that follow them to the end of BUF. -/
theorem readLoop_units (s : State) (vs : List Value) (before : List Byte)
    (h : s.buf = Memory.ofBytes (before ++ vs.flatMap fun v => enc v.toNat)) :
    readLoop s before.length vs.length = some (vs, s.buf.len) := by
  induction vs generalizing before with
  | nil =>
    have hlen : s.buf.len = before.length := by
      rw [h, Memory.ofBytes_len, List.flatMap_nil, List.append_nil]
    rw [List.length_nil, readLoop, hlen, if_neg (lt_irrefl _)]
  | cons v vs ih =>
    rw [List.flatMap_cons] at h
    have hlen : s.buf.len = before.length + (encLen v.toNat + (vs.flatMap fun v => enc v.toNat).length) := by
      rw [h, Memory.ofBytes_len, List.length_append, List.length_append, enc_length]
    have hpos := encLen_pos v.toNat
    have hnext : before.length + (BitVec.ofNat 4 (encLen v.toNat)).toNat = (before ++ enc v.toNat).length := by
      rw [count_toNat (encLen_le _), List.length_append, enc_length]
    refine readLoop_succ (by omega) (readAt_enc h) rfl ?_
    rw [hnext]
    exact ih (before ++ enc v.toNat) (by rw [h, List.append_assoc])

/-- Settles O57: the whole stream, with nothing before it. -/
theorem readLoopRecoversEveryValue : Obligations.ReadLoopRecoversEveryValue := fun s vs h => readLoop_units s vs [] h

/-! ## The requester's actions and good states -/

section goodState
variable {s t : State} {offset : Nat} {race : List Host.Cell}

theorem drive_goodState (h : goodState s) (d : Inputs) : goodState (s.drive d) := h

theorem fillWindow_goodState (hs : goodState s) (h : s.fillWindow offset race = .ok t) :
    goodState t ∧ t.buf.len = s.buf.len := by
  obtain ⟨bytes, -, hfill, -⟩ := s.fillWindow_spec offset race
  rw [hfill] at h
  cases h
  obtain ⟨houtputs, hflight, hwf⟩ := hs
  exact ⟨⟨houtputs, hflight, Memory.afterRace_wf hwf⟩, Memory.afterRace_len⟩

/-- DECODE_AT is a fill followed by a drive. -/
theorem State.decodeAt_ok (h : s.decodeAt offset race = .ok t) :
    ∃ u d, s.fillWindow offset race = .ok u ∧ t = u.drive d := by
  unfold State.decodeAt at h
  split at h
  case h_1 => cases h
  case h_2 u hfill => exact ⟨u, _, hfill, (Except.ok.inj h).symm⟩

theorem State.hostWrite_ok {bytes : List Byte} (h : s.hostWrite offset bytes = .ok t) :
    ∃ m, s.buf.writeBytes offset bytes = .ok m ∧ t = { s with buf := m } := by
  unfold State.hostWrite at h
  split at h
  case h_1 => cases h
  case h_2 m hwrite => exact ⟨m, hwrite, (Except.ok.inj h).symm⟩

theorem hostWrite_goodState {bytes : List Byte} (hs : goodState s) (h : s.hostWrite offset bytes = .ok t) :
    goodState t := by
  obtain ⟨m, hwrite, rfl⟩ := State.hostWrite_ok h
  obtain ⟨houtputs, hflight, hwf⟩ := hs
  exact ⟨houtputs, hflight, Memory.writeBytes_wf hwf hwrite⟩

end goodState

/-- Settles O58. -/
theorem requesterKeepsGoodStates : Obligations.RequesterKeepsGoodStates := by
  intro s t offset race bytes d hs
  refine ⟨drive_goodState hs d, fillWindow_goodState hs, fun h => ?_, hostWrite_goodState hs⟩
  obtain ⟨u, e, hfill, rfl⟩ := State.decodeAt_ok h
  obtain ⟨hu, hlen⟩ := fillWindow_goodState hs hfill
  exact ⟨drive_goodState hu e, hlen⟩

end Sys2Proof.Machine
end
